-- ==== Sys2Proof/Word.lean ====
section
/-! DEFINITION. The word types of the core (00_scope.md R8, R10; 30_encoding.md R43 to R45). Every value is unsigned. -/

namespace Sys2Proof

/-- A byte, 0 to 255 (20_memory.md R30). -/
abbrev Byte := BitVec 8

/-- A 4-bit field: opcode, length, status (30_encoding.md R43, R44). -/
abbrev Nibble := BitVec 4

/-- A 32-bit value: the state register `S`, the `data` field of a word (10_state.md R14; 30_encoding.md R43). -/
abbrev Data := BitVec 32

/-- A 40-bit command or response word, bit 0 the least significant (30_encoding.md R43, R44). -/
abbrev Word40 := BitVec 40

end Sys2Proof
end

