-- ==== Sys2Proof/Syntax.lean ====
section
/-! DEFINITION. The commands of the core: one constructor for each row of the opcode table, with the fields that the five
formats give it (30_encoding.md R45). A row's `select` pair says which command a word is an attempt at (R48), so a word whose
reserved bits are set or whose length is out of range is still a term of its row: it is ill-formed (WellFormed.lean), and
executing it is the fault the spec gives that row. -/

namespace Sys2Proof

/-- The commands. A field `rsv` holds the bits that R45 marks reserved. -/
inductive Instr where
  /-- `SEED imm32`, format S: `rsv` is bits 35:32, `imm32` is bits 31:0 (40_generator.md R67). -/
  | seed (rsv : Nibble) (imm32 : Data)
  /-- `NEXT`, format Z: `rsv` is bits 35:0 (40_generator.md R68). -/
  | next (rsv : BitVec 36)
  /-- `XORB d8`, format B: `rsv` is bits 35:8, `d8` is bits 7:0 (41_cipher.md R73). -/
  | xorb (rsv : BitVec 28) (d8 : Byte)
  /-- `NEXTW len`, format L: `len` is bits 35:32, `rsv` is bits 31:0 (40_generator.md R69). -/
  | nextw (len : Nibble) (rsv : Data)
  /-- `XORW len, d_0 ..`, format W: `len` is bits 35:32, lane `j` of `data` is `d_j` for `j < len` and reserved above
  (41_cipher.md R74). -/
  | xorw (len : Nibble) (data : Data)
  /-- Opcode 0, which selects no command; `rest` is bits 35:0 (30_encoding.md R50). -/
  | illegalOp0 (rest : BitVec 36)
  /-- Opcodes 6 and 7, which select no command; `rest` is bits 36:0 (30_encoding.md R50). -/
  | illegalOp67 (rest : BitVec 37)
  /-- Opcodes 8 to 15, which select no command; `rest` is bits 38:0 (30_encoding.md R50). -/
  | illegalOp8F (rest : BitVec 39)
  deriving DecidableEq, Repr

/-- The fault codes a response can carry, in the order of their priority (60_exceptions.md R96, R101). -/
inductive FaultCode where
  /-- Status 1: the opcode selects no command (60_exceptions.md R97). -/
  | illegalOpcode
  /-- Status 2: the length of a wide command is not 1 to 4 (60_exceptions.md R98). -/
  | badLength
  /-- Status 3: a reserved bit is 1 (60_exceptions.md R99). -/
  | reservedNonzero
  /-- Status 4: a draw while `SEEDED = 0` (60_exceptions.md R100). -/
  | unseeded
  deriving DecidableEq, Repr

end Sys2Proof
end

