-- ==== Sys2Proof/Decode.lean ====
section
/-! DEFINITION. From a 40-bit word to a command, total (30_encoding.md R48, R51), the named rejection of an illegal encoding
(R51, checks 1 to 3), and the encoder (R45). -/

namespace Sys2Proof

/-- Bits 39:36 of a command word (30_encoding.md R43). -/
def opField (w : Word40) : Nibble := w.extractLsb' 36 4

/-- Bits 35:32 of a command word (30_encoding.md R43). -/
def lenField (w : Word40) : Nibble := w.extractLsb' 32 4

/-- Bits 31:0 of a command word (30_encoding.md R43). -/
def dataField (w : Word40) : Data := w.extractLsb' 0 32

/-- The row of the opcode table that selects a word, with the word's fields (30_encoding.md R45, R48). Every one of the
2^40 words is selected by one row. -/
def decode (w : Word40) : Instr :=
  if opField w = 0 then .illegalOp0 (w.extractLsb' 0 36)
  else if opField w = 1 then .seed (lenField w) (dataField w)
  else if opField w = 2 then .next (w.extractLsb' 0 36)
  else if opField w = 3 then .xorb (w.extractLsb' 8 28) (w.extractLsb' 0 8)
  else if opField w = 4 then .nextw (lenField w) (dataField w)
  else if opField w = 5 then .xorw (lenField w) (dataField w)
  else if opField w = 6 ∨ opField w = 7 then .illegalOp67 (w.extractLsb' 0 37)
  else .illegalOp8F (w.extractLsb' 0 39)

/-- Check 2 of 30_encoding.md R51: a length of 0 or of 5 and more. -/
def lengthRejection (len : Nibble) : Option FaultCode :=
  if len = 0 ∨ 5 ≤ len then some .badLength else none

/-- Check 3 of 30_encoding.md R51: the reserved bits are not all zero. -/
def reservedRejection {w : Nat} (rsv : BitVec w) : Option FaultCode :=
  if rsv ≠ 0 then some .reservedNonzero else none

/-- The reserved bits of `XORW`: `data[31:8*len]`, none when `len = 4` (30_encoding.md R51). -/
def xorwReserved (len : Nibble) (data : Data) : Data := data >>> (8 * len.toNat)

/-- Why an encoding is not legal: the first of the checks 1 to 3 of 30_encoding.md R51 that fails. `none` for a legal
command. -/
def rejection : Instr → Option FaultCode
  | .seed rsv _ => reservedRejection rsv
  | .next rsv => reservedRejection rsv
  | .xorb rsv _ => reservedRejection rsv
  | .nextw len rsv => (lengthRejection len).or (reservedRejection rsv)
  | .xorw len data => (lengthRejection len).or (reservedRejection (xorwReserved len data))
  | .illegalOp0 _ => some .illegalOpcode
  | .illegalOp67 _ => some .illegalOpcode
  | .illegalOp8F _ => some .illegalOpcode

/-- The word of a command, field by field as 30_encoding.md R45 lays it out. -/
def encode : Instr → Word40
  | .seed rsv imm32 => 0x1#4 ++ rsv ++ imm32
  | .next rsv => 0x2#4 ++ rsv
  | .xorb rsv d8 => 0x3#4 ++ rsv ++ d8
  | .nextw len rsv => 0x4#4 ++ len ++ rsv
  | .xorw len data => 0x5#4 ++ len ++ data
  | .illegalOp0 rest => 0x0#4 ++ rest
  | .illegalOp67 rest => 0b011#3 ++ rest
  | .illegalOp8F rest => 0b1#1 ++ rest

/-- The 40-bit word whose low `nbits` bits are `w` and whose other bits are 0. -/
def tableWord (nbits w : Nat) : Word40 := BitVec.ofNat 40 (w % 2 ^ nbits)

/-- The command that the decoder reads from a word numbered as the opcode table numbers it. A command is one 40-bit word and
has no byte order (20_memory.md R33; 30_encoding.md R43), so the table's bit numbers are the word's. No command is longer
than 40 bits. -/
def decodeTableWord (nbits w : Nat) : Option Instr :=
  if nbits ≤ 40 then some (decode (tableWord nbits w)) else none

end Sys2Proof
end

