-- ==== Sys2Proof/Config.lean ====
section
/-! DEFINITION. The constants of the hardware (00_scope.md R7, R8) and the values this model names where the spec names none. -/

namespace Sys2Proof.Config

/-- The multiplier `A` of the recurrence (00_scope.md R7). -/
def A : Data := 1664525#32

/-- The increment `C` of the recurrence (00_scope.md R7). -/
def C : Data := 1013904223#32

/-- `LANES`: the greatest number of bytes of one wide command (00_scope.md R8; 60_exceptions.md R98). -/
def lanes : Nat := 4

/-- `N_INST` of `State.reset`: the default of 00_scope.md R8. `State.resetN` takes any other number. (Log 2.) -/
def nInst : Nat := 1

/-- What `S` holds in `State.reset`. DESIGN CHOICE, unsafe: the spec gives `S` no reset value and says it is not zero
(10_state.md R25). No command can observe it. (Log 1.) -/
def resetS : Data := 0xDEADBEEF#32

/-- How many untaken responses a response channel of `State.reset` holds; `none` is no limit. DESIGN CHOICE, unsafe: the
spec gives no depth (20_memory.md R27). No statement rests on it. (Log 3.) -/
def rspDepth : Option Nat := none

end Sys2Proof.Config
end

