-- ==== Sys2Proof/Machine/State.lean ====
section
/-! DEFINITION. The state of the machine, its reset value, and the reasons a step can stop. -/

namespace Sys2Proof.Machine

/-- One core instance (10_state.md R13, R23; 20_memory.md R27). -/
structure CoreInst where
  /-- The state register `S` (10_state.md R14). -/
  S : Data
  /-- The flag `SEEDED` (10_state.md R18). -/
  seeded : Bool
  /-- The command channel: words presented and not yet executed, oldest first (20_memory.md R27). -/
  cmds : List Word40
  /-- The response channel: words produced and not yet taken, oldest first (20_memory.md R27). -/
  rsps : List Word40
  deriving DecidableEq, Repr

/-- The whole core: `N_INST` instances that share nothing (10_state.md R23), and three fields of the model's own (log 3, log 5)
that say which instance a step serves and how many untaken responses fit. -/
structure State where
  /-- The instances, number 0 first. Their number is `N_INST` (00_scope.md R8). -/
  insts : List CoreInst
  /-- The model's own field: the instance whose command is being executed, or was executed last (log 5). -/
  cur : Nat
  /-- The model's own field: the instances that the coming steps serve, in order. When it is empty the lowest numbered
  instance that can move is served (log 5). -/
  sched : List Nat
  /-- The model's own field: how many untaken responses a response channel holds before its instance waits; none is no
  limit (log 3). -/
  rspDepth : Option Nat
  deriving DecidableEq, Repr

/-- Why the machine can stop. The hardware never does: every command word in every state has a response
(93_implementation_defined.md). The four fault codes of the spec are responses, not these. -/
inductive Fault where
  /-- Raised by a meaning when `State.cur` is no instance of the State. Such a State is no hardware; no step from a State
  with `State.wf` reaches it. Safe. (Log 8.) -/
  | noSuchInstance
  deriving DecidableEq, Repr

/-- Why the model refuses an instruction. -/
inductive Refusal where
  /-- Raised by an arm of `exec` for an instruction that has no meaning yet. No arm raises it. Safe. -/
  | notModelled (mnemonic : String)
  deriving DecidableEq, Repr

/-- An instance after reset, `leftover` being what its register `S` holds (10_state.md R25; 70_reset_and_hazards.md R115). -/
def CoreInst.reset (leftover : Data) : CoreInst :=
  { S := leftover, seeded := false, cmds := [], rsps := [] }

/-- The core with `n` instances right after reset (00_scope.md R8; 70_reset_and_hazards.md R114, R115). -/
def State.resetN (n : Nat) : State :=
  { insts := List.replicate n (CoreInst.reset Config.resetS), cur := 0, sched := [], rspDepth := Config.rspDepth }

/-- The core right after reset, with the default number of instances. -/
def State.reset : State := State.resetN Config.nInst

/-- The State is one of a core: it has its current instance, so at least one instance (00_scope.md R8, "a positive
integer"), and a response channel holds at least one response (20_memory.md R27, "exactly one response per command"). -/
abbrev State.wf (s : State) : Prop := s.cur < s.insts.length ∧ s.rspDepth ≠ some 0

end Sys2Proof.Machine
end

