-- ==== Sys2Proof/Machine/Flags.lean ====
section
/-! DEFINITION. The one flag, `SEEDED`, and the status codes: which fault a command takes (30_encoding.md R51; 60_exceptions.md
R96 to R101). The core has no condition codes (10_state.md R19). -/

namespace Sys2Proof.Machine

/-- The status `OK` (60_exceptions.md R96). -/
def statusOk : Nibble := 0

/-- The status of a fault (60_exceptions.md R96). -/
def statusOf : FaultCode → Nibble
  | .illegalOpcode => 1
  | .badLength => 2
  | .reservedNonzero => 3
  | .unseeded => 4

/-- Check 4 of 30_encoding.md R51 for a draw command: `SEEDED = 0`. -/
def seededRejection (seeded : Bool) : Option FaultCode :=
  if seeded then none else some .unseeded

/-- The fault that `SEED` takes, if any: it never takes `UNSEEDED` (40_generator.md R67; 60_exceptions.md R100). -/
def seedFault (i : Instr) : Option FaultCode := rejection i

/-- The fault that a draw command takes, if any: an illegal encoding first, then `UNSEEDED` (60_exceptions.md R101). -/
def drawFault (i : Instr) (seeded : Bool) : Option FaultCode := (rejection i).or (seededRejection seeded)

end Sys2Proof.Machine
end

