-- ==== Sys2Proof/Machine/Operands.lean ====
section
/-! DEFINITION. The operand forms (20_memory.md R32; 30_encoding.md R46, R47; 40_generator.md R55): lanes of a data field, zero
extension, and the normalisation of a seed. Nothing is sign-extended, scaled or shifted (R46). -/

namespace Sys2Proof.Machine

/-- `byte_j(d)`: lane `j` of a data field, bits `8j+7:8j` (00_scope.md R11; 20_memory.md R32). -/
def laneByte (d : Data) (j : Nat) : Byte := d.extractLsb' (8 * j) 8

/-- Lanes 0 to `n-1` of a data field, lane 0 first: the bytes in stream order (20_memory.md R32). -/
def lanes (n : Nat) (d : Data) : List Byte := (List.range n).map (laneByte d)

/-- `zext_32` of a byte: the byte in lane 0 (00_scope.md R10). -/
def zext32 (b : Byte) : Data := b.setWidth 32

/-- The data field that holds the bytes of a list in lanes 0, 1, ..., the other lanes 0 (20_memory.md R32; 30_encoding.md
R44). -/
def packLanes : List Byte → Data
  | [] => 0
  | b :: bs => zext32 b ||| (packLanes bs <<< 8)

/-- The seed operand: `norm32(z) = z mod 2^32`, the non-negative residue (40_generator.md R55). -/
def norm32 (z : Int) : Data := BitVec.ofNat 32 (z % 2 ^ 32).toNat

end Sys2Proof.Machine
end

