-- ==== Sys2Proof/Machine/Ops.lean ====
section
/-! DEFINITION. The operations the commands share: the update function and the draw (40_generator.md R56 to R59), responding
(00_scope.md R11; 30_encoding.md R44) and taking a fault (60_exceptions.md R102, R103). -/

namespace Sys2Proof.Machine

/-- The update function `lcg(s) = (A * s + C) mod 2^32` (40_generator.md R56). The constant stands first so that Lean stops
unfolding the sum at the unknown `s`; `lcg_eq` gives the spec's order. -/
def lcg (s : Data) : Data := Config.C + Config.A * s

/-- The emitted byte: the low 8 bits of `S` (40_generator.md R58). -/
def lowByte (s : Data) : Byte := s.extractLsb' 0 8

/-- The word `{st[3:0], len[3:0], data[31:0]}` (30_encoding.md R44). -/
def rspWord (st len : Nibble) (data : Data) : Word40 := st ++ len ++ data

/-- `respond(st, len, data)`: the response goes to the end of the response channel (00_scope.md R11; 20_memory.md R27). -/
def CoreInst.respond (c : CoreInst) (st len : Nibble) (data : Data) : CoreInst :=
  { c with rsps := c.rsps ++ [rspWord st len data] }

/-- `fault(code)`: the response `{code, 0, 0}` and nothing else (60_exceptions.md R102, R103). It is the whole of taking an
exception on this core; there is no return from one (R104). -/
def CoreInst.takeFault (c : CoreInst) (f : FaultCode) : CoreInst := c.respond (statusOf f) 0 0

/-- A command: the fault it takes, or its effect (30_encoding.md R51, step 5). -/
def CoreInst.attempt (c : CoreInst) (fault? : Option FaultCode) (effect : CoreInst → CoreInst) : CoreInst :=
  match fault? with
  | some f => c.takeFault f
  | none => effect c

/-- Instantiating a generator: `S <- imm32; SEEDED <- 1` (40_generator.md R67). -/
def CoreInst.seedWith (c : CoreInst) (imm32 : Data) : CoreInst := { c with S := imm32, seeded := true }

/-- One draw: the update, then the low byte of the NEW value (40_generator.md R59). -/
def CoreInst.draw (c : CoreInst) : Byte × CoreInst :=
  (lowByte (lcg c.S), { c with S := lcg c.S })

/-- `n` draws one after the other, their bytes in order (40_generator.md R69; 41_cipher.md R74). -/
def CoreInst.draws : Nat → CoreInst → List Byte × CoreInst
  | 0, c => ([], c)
  | n + 1, c =>
    let (k, c₁) := c.draw
    let (ks, c₂) := CoreInst.draws n c₁
    (k :: ks, c₂)

/-- Byte-wise XOR of two byte sequences (41_cipher.md R70). -/
def xorBytes (ds ks : List Byte) : List Byte := List.zipWith (· ^^^ ·) ds ks

/-- Instance `p` changed by `f`, every other instance left alone (10_state.md R23). -/
def State.updInst (s : State) (p : Nat) (f : CoreInst → CoreInst) : State :=
  { s with insts := s.insts.modify p f }

/-- A command changes the current instance only (10_state.md R23). The fault is for a State that is no core. -/
def State.onCur (s : State) (f : CoreInst → CoreInst) : Host.Outcome State Fault Refusal :=
  if s.cur < s.insts.length then .next (s.updInst s.cur f) else .fault .noSuchInstance

end Sys2Proof.Machine
end

