-- ==== Sys2Proof/Machine/Cipher.lean ====
section
/-! DEFINITION. The stream-cipher commands `XORB`, `XORW` (41_cipher.md R73, R74). Encryption and decryption are the same
path (R71). -/

namespace Sys2Proof.Machine

/-- `XORB d8` on one instance (41_cipher.md R73). -/
def CoreInst.xorb (rsv : BitVec 28) (d8 : Byte) (c : CoreInst) : CoreInst :=
  c.attempt (drawFault (.xorb rsv d8) c.seeded) fun c =>
    let (k, c') := c.draw
    c'.respond statusOk 1 (zext32 (d8 ^^^ k))

/-- `XORW len, d_0 ..` on one instance (41_cipher.md R74). -/
def CoreInst.xorw (len : Nibble) (data : Data) (c : CoreInst) : CoreInst :=
  c.attempt (drawFault (.xorw len data) c.seeded) fun c =>
    let (ks, c') := c.draws len.toNat
    c'.respond statusOk len (packLanes (xorBytes (lanes len.toNat data) ks))

/-- The meaning of `XORB` (41_cipher.md R73). -/
def execXorb (rsv : BitVec 28) (d8 : Byte) (s : State) : Host.Outcome State Fault Refusal :=
  s.onCur (CoreInst.xorb rsv d8)

/-- The meaning of `XORW` (41_cipher.md R74). -/
def execXorw (len : Nibble) (data : Data) (s : State) : Host.Outcome State Fault Refusal :=
  s.onCur (CoreInst.xorw len data)

end Sys2Proof.Machine
end

