-- ==== Sys2Proof/Machine/Generator.lean ====
section
/-! DEFINITION. The generator commands `SEED`, `NEXT`, `NEXTW` (40_generator.md R67, R68, R69). -/

namespace Sys2Proof.Machine

/-- `SEED imm32` on one instance (40_generator.md R67). -/
def CoreInst.seed (rsv : Nibble) (imm32 : Data) (c : CoreInst) : CoreInst :=
  c.attempt (seedFault (.seed rsv imm32)) fun c => (c.seedWith imm32).respond statusOk 0 0

/-- `NEXT` on one instance (40_generator.md R68). -/
def CoreInst.next (rsv : BitVec 36) (c : CoreInst) : CoreInst :=
  c.attempt (drawFault (.next rsv) c.seeded) fun c =>
    let (k, c') := c.draw
    c'.respond statusOk 1 (zext32 k)

/-- `NEXTW len` on one instance (40_generator.md R69). -/
def CoreInst.nextw (len : Nibble) (rsv : Data) (c : CoreInst) : CoreInst :=
  c.attempt (drawFault (.nextw len rsv) c.seeded) fun c =>
    let (ks, c') := c.draws len.toNat
    c'.respond statusOk len (packLanes ks)

/-- The meaning of `SEED` (40_generator.md R67). -/
def execSeed (rsv : Nibble) (imm32 : Data) (s : State) : Host.Outcome State Fault Refusal :=
  s.onCur (CoreInst.seed rsv imm32)

/-- The meaning of `NEXT` (40_generator.md R68). -/
def execNext (rsv : BitVec 36) (s : State) : Host.Outcome State Fault Refusal :=
  s.onCur (CoreInst.next rsv)

/-- The meaning of `NEXTW` (40_generator.md R69). -/
def execNextw (len : Nibble) (rsv : Data) (s : State) : Host.Outcome State Fault Refusal :=
  s.onCur (CoreInst.nextw len rsv)

end Sys2Proof.Machine
end

