-- ==== Sys2Proof/Machine/Illegal.lean ====
section
/-! DEFINITION. The three illegal opcode ranges: the fault `ILLEGAL_OPCODE` always, whatever the other bits (30_encoding.md
R50; 60_exceptions.md R97). -/

namespace Sys2Proof.Machine

/-- The meaning of a word with opcode 0 (30_encoding.md R50). -/
def execIllegalOp0 (_rest : BitVec 36) (s : State) : Host.Outcome State Fault Refusal :=
  s.onCur (·.takeFault .illegalOpcode)

/-- The meaning of a word with opcode 6 or 7 (30_encoding.md R50). -/
def execIllegalOp67 (_rest : BitVec 37) (s : State) : Host.Outcome State Fault Refusal :=
  s.onCur (·.takeFault .illegalOpcode)

/-- The meaning of a word with opcode 8 to 15 (30_encoding.md R50). -/
def execIllegalOp8F (_rest : BitVec 39) (s : State) : Host.Outcome State Fault Refusal :=
  s.onCur (·.takeFault .illegalOpcode)

end Sys2Proof.Machine
end

