-- ==== Sys2Proof/Machine/Dispatch.lean ====
section
/-! DEFINITION. One arm for each constructor of Instr. -/

namespace Sys2Proof.Machine

/-- Execute one command on the current instance (60_exceptions.md R106). -/
def exec (i : Instr) (s : State) : Host.Outcome State Fault Refusal :=
  match i with
  | .seed rsv imm32 => Sys2Proof.Machine.execSeed rsv imm32 s
  | .next rsv => Sys2Proof.Machine.execNext rsv s
  | .xorb rsv d8 => Sys2Proof.Machine.execXorb rsv d8 s
  | .nextw len rsv => Sys2Proof.Machine.execNextw len rsv s
  | .xorw len data => Sys2Proof.Machine.execXorw len data s
  | .illegalOp0 rest => Sys2Proof.Machine.execIllegalOp0 rest s
  | .illegalOp67 rest => Sys2Proof.Machine.execIllegalOp67 rest s
  | .illegalOp8F rest => Sys2Proof.Machine.execIllegalOp8F rest s

end Sys2Proof.Machine
end

