-- ==== Sys2Proof/Machine/Fetch.lean ====
section
/-! DEFINITION. Where the next command comes from. The core fetches nothing (00_scope.md R2; 10_state.md R22): a step takes the
oldest word of the command channel of the instance it serves (20_memory.md R27, R38). -/

namespace Sys2Proof.Machine

/-- The response channel of the instance can take one more response (20_memory.md R27; log 3). -/
def CoreInst.hasRoom (depth : Option Nat) (c : CoreInst) : Bool :=
  match depth with
  | none => true
  | some d => decide (c.rsps.length < d)

/-- The instance has a command to execute and room for its response. An instance that receives no command does nothing
(60_exceptions.md R113); one whose responses are not taken waits (20_memory.md R27; 70_reset_and_hazards.md R123). -/
def CoreInst.ready (depth : Option Nat) (c : CoreInst) : Bool := !c.cmds.isEmpty && c.hasRoom depth

/-- Instance `p` exists and is ready. -/
def State.ready (s : State) (p : Nat) : Bool :=
  match s.insts[p]? with
  | none => false
  | some c => c.ready s.rspDepth

/-- The instance that the next step serves, if one moves: the head of `sched` if it is ready, and with an empty `sched` the
lowest numbered instance that is ready. The spec leaves the order open (20_memory.md R39). DESIGN CHOICE, log 5. -/
def State.nextPort (s : State) : Option Nat :=
  match s.sched with
  | p :: _ => if s.ready p then some p else none
  | [] => (List.range s.insts.length).find? s.ready

/-- Instance `p` made current and its oldest command word taken off its channel: each word is consumed once
(20_memory.md R41). -/
def State.fetchFrom (s : State) (p : Nat) : State :=
  { s.updInst p (fun c => { c with cmds := c.cmds.tail }) with cur := p, sched := s.sched.tail }

/-- The word the next step executes and the State it executes it in. -/
def State.fetch (s : State) : Option (Word40 × State) :=
  match s.nextPort with
  | none => none
  | some p =>
    match s.insts[p]? with
    | none => none
    | some c => c.cmds.head?.map fun w => (w, s.fetchFrom p)

/-- A step in which no command is executed: only the turn of `sched` passes (60_exceptions.md R113; log 6). -/
def State.idle (s : State) : State := { s with sched := s.sched.tail }

/-- The instance with `w` as its oldest command, and with its responses taken if its channel was full. -/
def CoreInst.withFetchWord (depth : Option Nat) (w : Word40) (c : CoreInst) : CoreInst :=
  { c with cmds := w :: c.cmds, rsps := if c.hasRoom depth then c.rsps else [] }

end Sys2Proof.Machine
end

