-- ==== Sys2Proof/Machine/Step.lean ====
section
/-! DEFINITION. One step of the core: one command of one instance, or nothing to do. -/

namespace Sys2Proof.Machine

/-- One step (00_scope.md R9; 20_memory.md R27, R36, R38; 60_exceptions.md R106, R113). -/
def step (s : State) : Host.Outcome State Fault Refusal :=
  match s.fetch with
  | none => .next s.idle
  | some (w, s') => exec (decode w) s'

/-- The State in which the very next step executes the word: it is the oldest word of the current instance's command channel,
and that instance is served next. A program comes from outside, as words the host presents (log 10). -/
def State.withFetchWord (s : State) (nbits w : Nat) : State :=
  { s.updInst s.cur (CoreInst.withFetchWord s.rspDepth (tableWord nbits w)) with sched := s.cur :: s.sched }

end Sys2Proof.Machine
end

