-- ==== Sys2Proof/Machine/Assembler.lean ====
section
/-! DEFINITION. The assembler: the commands, the pseudo-instructions and `RAW` (30_encoding.md R52, R53), the macros of the block
operations (42_block_operations.md R81 to R83), and the splits of a block operation into draw commands (R84). -/

namespace Sys2Proof.Machine

/-- One line of assembler (30_encoding.md R52, R53). Numbers are as written, before any range check. -/
inductive AsmLine where
  | seed (z : Int)
  | next
  | xorb (b : Nat)
  | nextw (n : Nat)
  | xorw (n : Nat) (bs : List Nat)
  | raw (w : Nat)
  | encb (b : Nat)
  | decb (b : Nat)
  | encw (n : Nat) (bs : List Nat)
  | decw (n : Nat) (bs : List Nat)
  | keystream (z : Int) (n : Nat)
  | encrypt (z : Int) (ps : List Nat)
  | decrypt (z : Int) (cs : List Nat)
  deriving DecidableEq, Repr

/-- The word of `SEED z`: `imm32 = norm32(z)` (30_encoding.md R47, R52). -/
def seedWord (z : Int) : Word40 := encode (.seed 0 (norm32 z))

/-- The word of `NEXT` (30_encoding.md R52). -/
def nextWord : Word40 := encode (.next 0)

/-- The word of `XORB b` (30_encoding.md R52). -/
def xorbWord (b : Byte) : Word40 := encode (.xorb 0 b)

/-- The word of `NEXTW n` (30_encoding.md R52). -/
def nextwWord (n : Nat) : Word40 := encode (.nextw (BitVec.ofNat 4 n) 0)

/-- The word of `XORW n, b0, ..`: lane `j` is `bj`, 0 above (30_encoding.md R52). -/
def xorwWord (bs : List Byte) : Word40 := encode (.xorw (BitVec.ofNat 4 bs.length) (packLanes bs))

/-- A byte operand: refused above 255 (30_encoding.md R52). -/
def asmByte (b : Nat) : Option Byte := if b ≤ 255 then some (BitVec.ofNat 8 b) else none

/-- Byte operands, refused if one of them is (30_encoding.md R52). For the bytes of `ENCRYPT` and `DECRYPT`, so that a macro
with one refused byte gives no words at all: DESIGN CHOICE, log 15. -/
def asmBytes : List Nat → Option (List Byte)
  | [] => some []
  | b :: bs => (asmByte b).bind fun x => (asmBytes bs).map fun xs => x :: xs

/-- `XORB b` (30_encoding.md R52). -/
def asmXorb (b : Nat) : Option (List Word40) := (asmByte b).map fun x => [xorbWord x]

/-- `XORW n, b0, ..`: `n` from 1 to 4 and exactly `n` bytes (30_encoding.md R52). -/
def asmXorw (n : Nat) (bs : List Nat) : Option (List Word40) :=
  if 1 ≤ n ∧ n ≤ 4 ∧ bs.length = n then (asmBytes bs).map fun xs => [xorwWord xs] else none

/-- `ENCRYPT z, P` with one `XORB` a byte: a `SEED` and then the bytes in order (42_block_operations.md R82). -/
def encryptWords (z : Int) (P : List Byte) : List Word40 := seedWord z :: P.map xorbWord

/-- `KEYSTREAM z, n` with `NEXT` only (42_block_operations.md R81). -/
def keystreamWords (z : Int) (n : Nat) : List Word40 := seedWord z :: List.replicate n nextWord

/-- The words of a line, or refused (30_encoding.md R52, R53). The macros take the split into single bytes (log 11). -/
def assemble : AsmLine → Option (List Word40)
  | .seed z => some [seedWord z]
  | .next => some [nextWord]
  | .xorb b => asmXorb b
  | .nextw n => if 1 ≤ n ∧ n ≤ 4 then some [nextwWord n] else none
  | .xorw n bs => asmXorw n bs
  | .raw w => if w < 2 ^ 40 then some [BitVec.ofNat 40 w] else none
  | .encb b => asmXorb b
  | .decb b => asmXorb b
  | .encw n bs => asmXorw n bs
  | .decw n bs => asmXorw n bs
  | .keystream z n => some (keystreamWords z n)
  | .encrypt z ps => (asmBytes ps).map (encryptWords z)
  | .decrypt z cs => (asmBytes cs).map (encryptWords z)

/-- The words of a program, its lines in order (10_state.md R22). A program with a refused line has no words at all: DESIGN
CHOICE, log 15; 30_encoding.md R52 says only that the line is not encoded. -/
def assembleAll : List AsmLine → Option (List Word40)
  | [] => some []
  | l :: ls => (assemble l).bind fun ws => (assembleAll ls).map fun ws' => ws ++ ws'

/-- One draw command of a split: what the host may use for the bytes of a block operation (42_block_operations.md R84). -/
inductive DrawCmd where
  | next
  | xorb (d : Byte)
  | nextw (n : Nat)
  | xorw (ds : List Byte)
  deriving DecidableEq, Repr

/-- The draw command has a length that the core executes (30_encoding.md R45). -/
def DrawCmd.ok : DrawCmd → Bool
  | .next => true
  | .xorb _ => true
  | .nextw n => decide (1 ≤ n) && decide (n ≤ 4)
  | .xorw ds => decide (1 ≤ ds.length) && decide (ds.length ≤ 4)

/-- Its command word. -/
def DrawCmd.word : DrawCmd → Word40
  | .next => nextWord
  | .xorb d => xorbWord d
  | .nextw n => nextwWord n
  | .xorw ds => xorwWord ds

/-- The data bytes it carries, "where a keystream command counts as carrying zero bytes" (42_block_operations.md R84). -/
def DrawCmd.carried : DrawCmd → List Byte
  | .next => [0]
  | .xorb d => [d]
  | .nextw n => List.replicate n 0
  | .xorw ds => ds

/-- The command draws keystream only: `NEXT` or `NEXTW` (42_block_operations.md R81). -/
def DrawCmd.isKeystream : DrawCmd → Bool
  | .next => true
  | .nextw _ => true
  | .xorb _ => false
  | .xorw _ => false

/-- The data bytes of a split, in stream order (42_block_operations.md R84). -/
def carriedBy (ds : List DrawCmd) : List Byte := ds.flatMap DrawCmd.carried

/-- The words of a block operation with a split of one's choice: a `SEED` and the draw commands (42_block_operations.md R81,
R82, R84). -/
def splitWords (z : Int) (ds : List DrawCmd) : List Word40 := seedWord z :: ds.map DrawCmd.word

end Sys2Proof.Machine
end

