-- ==== Sys2Proof/Machine/AsmText.lean ====
section
/-! DEFINITION. The text of the assembler (30_encoding.md R52, R53): one command a line, `;` starts a comment, upper-case
mnemonics, operands separated by commas, decimal or `0x` literals, a seed with a leading `-`. Blanks around an operand, blank
lines, hexadecimal digits of either case and the brackets of a byte sequence are read as log 11 says. -/

namespace Sys2Proof.Machine

/-- A blank or a tab. -/
def isBlank (c : Char) : Bool := c == ' ' || c == '\t'

/-- The characters cut at each `sep`. -/
def cutAt (sep : Char) : List Char → List (List Char)
  | [] => [[]]
  | c :: cs =>
    if c == sep then [] :: cutAt sep cs
    else
      match cutAt sep cs with
      | [] => [[c]]
      | p :: ps => (c :: p) :: ps

/-- The characters without the blanks at either end. -/
def trimBlanks (cs : List Char) : List Char := ((cs.dropWhile isBlank).reverse.dropWhile isBlank).reverse

/-- The value of a digit, `none` if it is no digit of the base (at most 16). -/
def digitValue (base : Nat) (c : Char) : Option Nat :=
  let n := c.toNat
  let v := if 48 ≤ n ∧ n ≤ 57 then some (n - 48)
    else if 65 ≤ n ∧ n ≤ 70 then some (n - 55)
    else if 97 ≤ n ∧ n ≤ 102 then some (n - 87)
    else none
  v.bind fun d => if d < base then some d else none

/-- The number that digits spell after the digits read so far. -/
def digitsFrom (base : Nat) : Nat → List Char → Option Nat
  | acc, [] => some acc
  | acc, c :: cs => (digitValue base c).bind fun d => digitsFrom base (acc * base + d) cs

/-- A literal: decimal, or hexadecimal after `0x` (30_encoding.md R52). -/
def parseNat : List Char → Option Nat
  | [] => none
  | '0' :: 'x' :: c :: cs => digitsFrom 16 0 (c :: cs)
  | cs => digitsFrom 10 0 cs

/-- A seed literal: an optional leading `-`, any size (30_encoding.md R52). -/
def parseInt : List Char → Option Int
  | '-' :: cs => (parseNat cs).map fun n => -(n : Int)
  | cs => (parseNat cs).map fun n => (n : Int)

/-- All the members, or `none` if one is missing. -/
def allSome : List (Option Nat) → Option (List Nat)
  | [] => some []
  | o :: os => o.bind fun x => (allSome os).map fun xs => x :: xs

/-- The operands of a line, trimmed; a line with none has the empty list. -/
def operandsOf (cs : List Char) : List (List Char) :=
  if trimBlanks cs = [] then [] else (cutAt ',' cs).map trimBlanks

/-- The bytes of a sequence `[p_0, ..., p_(n-1)]` (30_encoding.md R53). -/
def parseSeq (cs : List Char) : Option (List Nat) :=
  match trimBlanks cs with
  | '[' :: rest =>
    match rest.reverse with
    | ']' :: body => allSome ((operandsOf body.reverse).map parseNat)
    | _ => none
  | _ => none

/-- A mnemonic with one number as its operand. -/
def oneNat (f : Nat → AsmLine) (cs : List Char) : Option AsmLine :=
  match operandsOf cs with
  | [a] => (parseNat a).map f
  | _ => none

/-- A mnemonic with a count and bytes as its operands. -/
def countAndBytes (f : Nat → List Nat → AsmLine) (cs : List Char) : Option AsmLine :=
  match operandsOf cs with
  | a :: bs => (parseNat a).bind fun n => (allSome (bs.map parseNat)).map (f n)
  | [] => none

/-- A mnemonic with a seed and a byte sequence as its operands. -/
def seedAndSeq (f : Int → List Nat → AsmLine) (cs : List Char) : Option AsmLine :=
  (parseInt (trimBlanks (cs.takeWhile (· != ',')))).bind fun z =>
    (parseSeq ((cs.dropWhile (· != ',')).drop 1)).map (f z)

/-- The line of a mnemonic and the characters after it (30_encoding.md R52, R53). -/
def parseOperands (mnemonic rest : List Char) : Option AsmLine :=
  match mnemonic with
  | ['S', 'E', 'E', 'D'] =>
    match operandsOf rest with
    | [a] => (parseInt a).map .seed
    | _ => none
  | ['N', 'E', 'X', 'T'] => if operandsOf rest = [] then some .next else none
  | ['X', 'O', 'R', 'B'] => oneNat .xorb rest
  | ['N', 'E', 'X', 'T', 'W'] => oneNat .nextw rest
  | ['X', 'O', 'R', 'W'] => countAndBytes .xorw rest
  | ['R', 'A', 'W'] => oneNat .raw rest
  | ['E', 'N', 'C', 'B'] => oneNat .encb rest
  | ['D', 'E', 'C', 'B'] => oneNat .decb rest
  | ['E', 'N', 'C', 'W'] => countAndBytes .encw rest
  | ['D', 'E', 'C', 'W'] => countAndBytes .decw rest
  | ['K', 'E', 'Y', 'S', 'T', 'R', 'E', 'A', 'M'] =>
    match operandsOf rest with
    | [a, b] => (parseInt a).bind fun z => (parseNat b).map (.keystream z)
    | _ => none
  | ['E', 'N', 'C', 'R', 'Y', 'P', 'T'] => seedAndSeq .encrypt rest
  | ['D', 'E', 'C', 'R', 'Y', 'P', 'T'] => seedAndSeq .decrypt rest
  | _ => none

/-- One line of text: no command on a blank line or one that holds a comment only; `none` if it cannot be read. -/
def parseLine (cs : List Char) : Option (List AsmLine) :=
  let code := trimBlanks (cs.takeWhile (· != ';'))
  if code = [] then some []
  else (parseOperands (code.takeWhile (!isBlank ·)) (code.dropWhile (!isBlank ·))).map fun l => [l]

/-- The lines of a program, `none` if one of them cannot be read (DESIGN CHOICE, log 15). -/
def parseLines : List (List Char) → Option (List AsmLine)
  | [] => some []
  | l :: ls => (parseLine l).bind fun xs => (parseLines ls).map fun ys => xs ++ ys

/-- A program text, one command a line, as command words (30_encoding.md R52). A text with a line that cannot be read or is
refused gives no words at all (DESIGN CHOICE, log 15). -/
def assembleText (text : List Char) : Option (List Word40) := (parseLines (cutAt '\n' text)).bind assembleAll

end Sys2Proof.Machine
end

