-- ==== Sys2Proof/Machine/Block.lean ====
section
/-! DEFINITION. The keystream and the three block operations as mathematical functions (40_generator.md R60, R64, R65;
42_block_operations.md R75 to R79). -/

namespace Sys2Proof.Machine

/-- The state sequence of a seed: `s_0 = norm32(z)`, `s_(i+1) = lcg(s_i)` (40_generator.md R60). -/
def stateSeq (z : Int) : Nat → Data
  | 0 => norm32 z
  | i + 1 => lcg (stateSeq z i)

/-- `keystream(z)`: the infinite sequence `k_i = s_(i+1)[7:0]` (40_generator.md R60; 42_block_operations.md R76). -/
def keystream (z : Int) (i : Nat) : Byte := lowByte (stateSeq z (i + 1))

/-- `KS(z, n)`: the first `n` bytes of the keystream (40_generator.md R60). -/
def KS (z : Int) (n : Nat) : List Byte := (List.range n).map (keystream z)

/-- `encrypt(z, P)`: byte `i` is `p_i XOR k_i` (42_block_operations.md R77). -/
def encrypt (z : Int) (P : List Byte) : List Byte := xorBytes P (KS z P.length)

/-- `decrypt(z, Q)`: the same contract and algorithm (42_block_operations.md R78). -/
def decrypt (z : Int) (Q : List Byte) : List Byte := xorBytes Q (KS z Q.length)

/-- `A_k` of the jump-ahead map, with `A_0 = 1` so that `A_1 = A` (40_generator.md R64). -/
def jumpA : Nat → Data
  | 0 => 1
  | k + 1 => Config.A * jumpA k

/-- `C_k` of the jump-ahead map, with `C_0 = 0` so that `C_1 = C` (40_generator.md R64). -/
def jumpC : Nat → Data
  | 0 => 0
  | k + 1 => Config.A * jumpC k + Config.C

/-- The inverse of the update function: `A' * (s - C)` with `A' = 4276115653` (40_generator.md R65). The core has no command
that computes it (R66). -/
def lcgInv (s : Data) : Data := 4276115653#32 * (s - Config.C)

end Sys2Proof.Machine
end

