-- ==== Sys2Proof/Machine/Reference.lean ====
section
/-! DEFINITION. The step function of 60_exceptions.md R106, transcribed with unbounded numbers and the slices of 00_scope.md R10,
apart from the commands' own meanings, so that the two can be compared. The machine does not use it. -/

namespace Sys2Proof.Machine

/-- `v[hi:lo]` as 00_scope.md R10 defines it, for a slice of `width` bits from bit `lo`. -/
def sliceNat (v lo width : Nat) : Nat := v / 2 ^ lo % 2 ^ width

/-- `{st, len, data}` as a number. -/
def refRsp (st len data : Nat) : Nat := st * 2 ^ 36 + len * 2 ^ 32 + data

/-- The loop of R106: for `j` from `j` on, `n` times, update `S` and fill lane `j` of `out`. -/
def refLoop (data : Nat) : Nat → Nat → Nat → Nat → Nat × Nat
  | 0, _, S, out => (S, out)
  | n + 1, j, S, out =>
    let S' := (1664525 * S + 1013904223) % 2 ^ 32
    refLoop data n (j + 1) S' (out + (sliceNat data (8 * j) 8 ^^^ sliceNat S' 0 8) * 2 ^ (8 * j))

/-- The reserved bits of a word, as the `case op of` of R106 gives them. -/
def refReserved (op len data : Nat) : Nat :=
  if op = 1 then len
  else if op = 2 then len * 2 ^ 32 + data
  else if op = 3 then len * 2 ^ 24 + sliceNat data 8 24
  else if op = 4 then data
  else if len = 4 then 0 else data / 2 ^ (8 * len)

/-- `step(S, SEEDED, cmd)` of R106: the new `S`, the new `SEEDED`, the response. -/
def refStep (S : Nat) (seeded : Bool) (cmd : Nat) : Nat × Bool × Nat :=
  let op := sliceNat cmd 36 4
  let len := sliceNat cmd 32 4
  let data := sliceNat cmd 0 32
  if op = 0 ∨ 6 ≤ op then (S, seeded, refRsp 1 0 0)
  else if (op = 4 ∨ op = 5) ∧ (len = 0 ∨ 5 ≤ len) then (S, seeded, refRsp 2 0 0)
  else if refReserved op len data ≠ 0 then (S, seeded, refRsp 3 0 0)
  else if op = 1 then (data, true, refRsp 0 0 0)
  else if seeded = false then (S, seeded, refRsp 4 0 0)
  else
    let n := if op = 2 ∨ op = 3 then 1 else len
    let (S', out) := refLoop data n 0 S 0
    (S', true, refRsp 0 n out)

/-- The fold of the step over a command sequence: the last `S` and `SEEDED` and the responses in order (R106). -/
def refRun : List Nat → Nat → Bool → Nat × Bool × List Nat
  | [], S, seeded => (S, seeded, [])
  | cmd :: cmds, S, seeded =>
    let (S₁, seeded₁, r) := refStep S seeded cmd
    let (S₂, seeded₂, rs) := refRun cmds S₁ seeded₁
    (S₂, seeded₂, r :: rs)

end Sys2Proof.Machine
end

