-- ==== Sys2Proof/Machine/Response.lean ====
section
/-! DEFINITION. What a host reads from a response word (30_encoding.md R44; 70_reset_and_hazards.md R121, R122). -/

namespace Sys2Proof.Machine

/-- Bits 39:36 of a response: the status (30_encoding.md R44). -/
def rspStatus (r : Word40) : Nibble := r.extractLsb' 36 4

/-- Bits 35:32 of a response: the number of valid bytes (30_encoding.md R44). -/
def rspLen (r : Word40) : Nibble := r.extractLsb' 32 4

/-- Bits 31:0 of a response: the result lanes (30_encoding.md R44). -/
def rspData (r : Word40) : Data := r.extractLsb' 0 32

/-- The valid bytes of a response: lanes 0 to `len - 1`, lane 0 first (42_block_operations.md R81; 70_reset_and_hazards.md
R122). A fault has none (R121). -/
def rspBytes (r : Word40) : List Byte := lanes (rspLen r).toNat (rspData r)

/-- The concatenation, in command order, of the valid lanes (42_block_operations.md R81, R82). -/
def validBytes (rs : List Word40) : List Byte := rs.flatMap rspBytes

end Sys2Proof.Machine
end

