-- ==== Sys2Proof/Machine/HostPort.lean ====
section
/-! DEFINITION. What the outside world can do to the core (20_memory.md R27; 70_reset_and_hazards.md R114, R117), and the runs
that follow: any list of host moves and core steps, with what the host observes. -/

namespace Sys2Proof.Machine

/-- The host presents a word to the command channel of instance `p` (20_memory.md R27). -/
def State.present (s : State) (p : Nat) (w : Word40) : State :=
  s.updInst p fun c => { c with cmds := c.cmds ++ [w] }

/-- The host takes the oldest response of instance `p`, if there is one; no other effect (20_memory.md R27, R37). -/
def State.take (s : State) (p : Nat) : Option Word40 × State :=
  ((s.insts[p]?).bind (·.rsps.head?), s.updInst p fun c => { c with rsps := c.rsps.tail })

/-- One more turn for instance `p` at the end of the order of service (log 5). -/
def State.serve (s : State) (p : Nat) : State := { s with sched := s.sched ++ [p] }

/-- The reset event: every instance at once, `SEEDED = 0`, channels empty, `S` unspecified (70_reset_and_hazards.md R114,
R115). `leftover` holds what the `S` of each instance happens to be left at; an instance beyond its end keeps the value it
had (log 9). -/
def State.coreReset (s : State) (leftover : List Data) : State :=
  { s with insts := s.insts.mapIdx (fun p c => CoreInst.reset (leftover.getD p c.S)), cur := 0, sched := [] }

/-- One event of a run: a step of the core or a move of the host. Reset occurs only between two commands
(70_reset_and_hazards.md R114). -/
inductive Event where
  | step
  | present (p : Nat) (w : Word40)
  | take (p : Nat)
  | serve (p : Nat)
  | reset (leftover : List Data)
  deriving DecidableEq, Repr

/-- A response word the host has taken, with the port it came from. -/
abbrev Observation := Nat × Word40

/-- One event: what the host observes in it, and the State after it. `none` if the core's step stops. -/
def State.event (s : State) : Event → Option (List Observation × State)
  | .step =>
    match Sys2Proof.Machine.step s with
    | .next s' => some ([], s')
    | _ => none
  | .present p w => some ([], s.present p w)
  | .take p => some (((s.take p).1.map fun r => (p, r)).toList, (s.take p).2)
  | .serve p => some ([], s.serve p)
  | .reset leftover => some ([], s.coreReset leftover)

/-- A run: its observations in order and its last State (70_reset_and_hazards.md R117). -/
def State.runEvents : List Event → State → Option (List Observation × State)
  | [], s => some ([], s)
  | e :: es, s =>
    match s.event e with
    | none => none
    | some (os, s') => (State.runEvents es s').map fun (os', s'') => (os ++ os', s'')

/-- One transaction on instance `p`: the host presents a word, the core executes it, the host takes the response (00_scope.md
R9). -/
def State.transact (s : State) (p : Nat) (w : Word40) : Option (Word40 × State) :=
  let s₁ := s.present p w
  match Sys2Proof.Machine.step { s₁ with sched := p :: s₁.sched } with
  | .next s₂ => (s₂.take p).1.map fun r => (r, (s₂.take p).2)
  | _ => none

/-- A list of transactions, each on its own port, and the responses in order. -/
def State.transactAll : List (Nat × Word40) → State → Option (List Word40 × State)
  | [], s => some ([], s)
  | (p, w) :: cs, s =>
    match s.transact p w with
    | none => none
    | some (r, s') => (State.transactAll cs s').map fun (rs, s'') => (r :: rs, s'')

/-- A command list for one port (10_state.md R22). -/
def onPort (p : Nat) (ws : List Word40) : List (Nat × Word40) := ws.map fun w => (p, w)

end Sys2Proof.Machine
end

