-- ==== Sys2Proof/WellFormed.lean ====
section
/-! DEFINITION. Which commands are LEGAL encodings: the `legal` pairs and the extra conditions of 30_encoding.md R48. -/

namespace Sys2Proof

/-- The length of a wide command is in range (30_encoding.md R48, "1 <= len <= 4"). -/
def lengthLegal (len : Nibble) : Bool := decide (1 ≤ len.toNat) && decide (len.toNat ≤ 4)

/-- The lanes at and above `len` are zero (30_encoding.md R48, "`cmd[31:8*len] = 0` when `len < 4`"). -/
def upperLanesZero (len : Nibble) (data : Data) : Bool := decide (data.toNat / 2 ^ (8 * len.toNat) = 0)

/-- A legal command (30_encoding.md R48). The three illegal opcode ranges select no command (R50), so none of their words
is legal. -/
def Instr.wf : Instr → Bool
  | .seed rsv _ => decide (rsv = 0)
  | .next rsv => decide (rsv = 0)
  | .xorb rsv _ => decide (rsv = 0)
  | .nextw len rsv => lengthLegal len && decide (rsv = 0)
  | .xorw len data => lengthLegal len && upperLanesZero len data
  | .illegalOp0 _ => false
  | .illegalOp67 _ => false
  | .illegalOp8F _ => false

end Sys2Proof
end

