-- ==== Sys2Proof/Safety.lean ====
section
/-! DEFINITION. What a safe run is: no fault seen (60_exceptions.md R104), responses of the form the spec gives (30_encoding.md
R44), and the host's duties that a claim takes as premises (70_reset_and_hazards.md R118 to R123). -/

namespace Sys2Proof.Machine

/-- The response says `OK` (60_exceptions.md R96). -/
def rspOk (r : Word40) : Bool := decide (rspStatus r = statusOk)

/-- "no fault ever happened": the record that a host keeps itself (60_exceptions.md R104). -/
def noFaultSeen (rs : List Word40) : Bool := rs.all rspOk

/-- A response word of the form of 30_encoding.md R44: status at most 4; at most 4 valid bytes; lanes at and above `len` zero;
a fault has no byte and no data. -/
abbrev rspWf (r : Word40) : Prop :=
  (rspStatus r).toNat ≤ 4 ∧ (rspLen r).toNat ≤ 4 ∧ (rspData r).toNat < 2 ^ (8 * (rspLen r).toNat) ∧
    (rspStatus r ≠ 0 → rspLen r = 0)

/-- The invariant of the machine: the State is one of a core, and every response waiting in a channel has the form of
30_encoding.md R44. -/
abbrev State.Inv (s : State) : Prop := s.wf ∧ ∀ c ∈ s.insts, ∀ r ∈ c.rsps, rspWf r

/-- Both channels of instance `p` are empty: every command presented to it has been executed and its response taken
(70_reset_and_hazards.md R117, the end of a run). -/
abbrev State.drained (s : State) (p : Nat) : Prop :=
  ∃ c, s.insts[p]? = some c ∧ c.cmds = [] ∧ c.rsps = []

/-- One `SEED` and then draw commands only: the command words of one block operation (42_block_operations.md R80;
70_reset_and_hazards.md R119). -/
def isBlockStream : List Word40 → Bool
  | [] => false
  | w :: ws => decide (opField w = 1) && ws.all fun w => decide (opField w ≠ 1)

/-- Every word of a command list is a legal encoding (30_encoding.md R48): the host uses the assembler's words only
(42_block_operations.md R85). -/
def allLegal (ws : List Word40) : Bool := ws.all fun w => (rejection (decode w)).isNone

/-- The State in which the current instance has one more response and nothing else is changed: what a command that only
answers leaves (60_exceptions.md R102). -/
def State.answered (s : State) (r : Word40) : State :=
  s.updInst s.cur fun c => { c with rsps := c.rsps ++ [r] }

/-- The reserved bits of the word's format are not all zero, for a word with a legal opcode and, in a wide command, a legal
length (30_encoding.md R51, check 3; 60_exceptions.md R99). -/
abbrev reservedSet (w : Word40) : Prop :=
  (opField w = 1 ∧ lenField w ≠ 0) ∨
  (opField w = 2 ∧ w.toNat % 2 ^ 36 ≠ 0) ∨
  (opField w = 3 ∧ w.toNat % 2 ^ 36 / 2 ^ 8 ≠ 0) ∨
  (opField w = 4 ∧ dataField w ≠ 0) ∨
  (opField w = 5 ∧ (dataField w).toNat / 2 ^ (8 * (lenField w).toNat) ≠ 0)

/-- The opcode selects no command (30_encoding.md R51, check 1). -/
abbrev opIllegal (w : Word40) : Prop := (opField w).toNat = 0 ∨ 6 ≤ (opField w).toNat

/-- A wide command whose length is not 1 to 4 (30_encoding.md R51, check 2). -/
abbrev lenIllegal (w : Word40) : Prop :=
  ((opField w).toNat = 4 ∨ (opField w).toNat = 5) ∧ ((lenField w).toNat = 0 ∨ 5 ≤ (lenField w).toNat)

/-- The words that the events of a run present to instance `p`, in order. -/
def presentedTo (p : Nat) (es : List Event) : List Word40 :=
  es.filterMap fun e =>
    match e with
    | .present q w => if q = p then some w else none
    | _ => none

/-- The responses that the host took from instance `p`, in order. -/
def takenFrom (p : Nat) (os : List Observation) : List Word40 :=
  os.filterMap fun o => if o.1 = p then some o.2 else none

/-- No event of the run is a reset. -/
def noReset (es : List Event) : Bool :=
  es.all fun e =>
    match e with
    | .reset _ => false
    | _ => true

/-- An instance without the bits of `S` that nothing can read: all of them before a seed (10_state.md R25), all but the low
byte after one (10_state.md R16; 40_generator.md R63). -/
def CoreInst.visible (c : CoreInst) : CoreInst :=
  { c with S := if c.seeded then zext32 (lowByte c.S) else 0 }

/-- The State without the bits that nothing can read. -/
def State.visible (s : State) : State := { s with insts := s.insts.map CoreInst.visible }

end Sys2Proof.Machine
end

