-- ==== Sys2Proof/Certificates/Slice0/Obligations.lean ====
section
/-! DEFINITION. The statements for the provers. Each docstring says what the statement formalises. -/

open Sys2Proof Sys2Proof.Machine

/-! ### Encoding -/

/-- Decoding the word of any command gives the command back, every field at every value (30_encoding.md R45). -/
def Obligations.DecodeOfEncodeIsTheCommand : Prop := ∀ i : Instr, decode (encode i) = i

/-- Encoding what any of the 2^40 words decodes to gives the word back: no bit is dropped and no two words decode to one
command (30_encoding.md R48, R51). -/
def Obligations.EncodeOfDecodeIsTheWord : Prop := ∀ w : Word40, encode (decode w) = w

/-- Words written out from the bit patterns of 30_encoding.md R45 and from 95_test_vectors.md decode to their commands. -/
def Obligations.WrittenOutWordsDecode : Prop :=
  decode 0x100000002A#40 = .seed 0 42#32 ∧ decode 0x2000000000#40 = .next 0 ∧
  decode 0x3000000048#40 = .xorb 0 0x48#8 ∧ decode 0x4400000000#40 = .nextw 4 0 ∧
  decode 0x544C4C4548#40 = .xorw 4 0x4C4C4548#32 ∧ decode 0x0000000000#40 = .illegalOp0 0 ∧
  decode 0x7123456789#40 = .illegalOp67 0x1123456789#37 ∧ decode 0xFFFFFFFFFF#40 = .illegalOp8F 0x7FFFFFFFFF#39

/-- The legal words are those of the (mask, match) table of 30_encoding.md R48 with its extra conditions, and they are the
words that the decoder does not reject. -/
def Obligations.LegalWordsAreTheTablesWords : Prop :=
  ∀ w : Word40,
    ((decode w).wf = true ↔
      (w &&& 0xFF00000000#40 = 0x1000000000#40 ∨ w &&& 0xFFFFFFFFFF#40 = 0x2000000000#40 ∨
       w &&& 0xFFFFFFFF00#40 = 0x3000000000#40 ∨
       (w &&& 0xF0FFFFFFFF#40 = 0x4000000000#40 ∧ 1 ≤ (lenField w).toNat ∧ (lenField w).toNat ≤ 4) ∨
       (w &&& 0xF000000000#40 = 0x5000000000#40 ∧ 1 ≤ (lenField w).toNat ∧ (lenField w).toNat ≤ 4 ∧
        ((lenField w).toNat < 4 → (dataField w).toNat / 2 ^ (8 * (lenField w).toNat) = 0)))) ∧
    ((decode w).wf = true ↔ rejection (decode w) = none)

/-- Lane `j` is bits `8j+7:8j`: packing a list of at most four bytes puts byte `j` in lane `j` and 0 above, and reading as
many lanes gives the list back (20_memory.md R32; 30_encoding.md R44). -/
def Obligations.PackedBytesAreReadBackInLaneOrder : Prop :=
  ∀ bs : List Byte, bs.length ≤ 4 →
    (∀ j, j < 4 → (packLanes bs).toNat / 2 ^ (8 * j) % 256 = (bs.getD j 0).toNat) ∧ lanes bs.length (packLanes bs) = bs

/-! ### The faults -/

/-- 60_exceptions.md R97, both ways: the response `{1, 0, 0}` and nothing else changed exactly for the illegal opcodes. -/
def Obligations.IllegalOpcodeFaultExactly : Prop :=
  ∀ (s : State) (w : Word40), s.wf →
    (opIllegal w → exec (decode w) s = .next (s.answered 0x1000000000#40)) ∧
    (¬opIllegal w → exec (decode w) s ≠ .next (s.answered 0x1000000000#40))

/-- 60_exceptions.md R98, both ways: the response `{2, 0, 0}` and nothing else changed exactly for a wide command whose length
is 0 or 5 to 15, whatever the data and whatever `SEEDED`. -/
def Obligations.BadLengthFaultExactly : Prop :=
  ∀ (s : State) (w : Word40), s.wf →
    (lenIllegal w → exec (decode w) s = .next (s.answered 0x2000000000#40)) ∧
    (¬lenIllegal w → exec (decode w) s ≠ .next (s.answered 0x2000000000#40))

/-- 60_exceptions.md R99, both ways: the response `{3, 0, 0}` and nothing else changed exactly for a legal opcode and length
with a reserved bit set, whatever `SEEDED`. -/
def Obligations.ReservedNonzeroFaultExactly : Prop :=
  ∀ (s : State) (w : Word40), s.wf →
    (¬lenIllegal w ∧ reservedSet w → exec (decode w) s = .next (s.answered 0x3000000000#40)) ∧
    (¬(¬lenIllegal w ∧ reservedSet w) → exec (decode w) s ≠ .next (s.answered 0x3000000000#40))

/-- 60_exceptions.md R100: the response `{4, 0, 0}` and nothing else changed exactly for a legal draw command while
`SEEDED = 0`; and `SEEDED = 0` after a run from a reset exactly when no legal `SEED` is among the run's commands. -/
def Obligations.UnseededFaultExactly : Prop :=
  (∀ (s : State) (c : CoreInst) (w : Word40), s.insts[s.cur]? = some c →
    ((decode w).wf = true ∧ opField w ≠ 1 ∧ c.seeded = false →
      exec (decode w) s = .next (s.answered 0x4000000000#40)) ∧
    (¬((decode w).wf = true ∧ opField w ≠ 1 ∧ c.seeded = false) →
      exec (decode w) s ≠ .next (s.answered 0x4000000000#40))) ∧
  ∀ (s t : State) (L : List Data) (p : Nat) (ws rs : List Word40) (c : CoreInst), s.wf →
    (s.coreReset L).transactAll (onPort p ws) = some (rs, t) → t.insts[p]? = some c →
    (c.seeded = true ↔ ∃ imm, encode (.seed 0 imm) ∈ ws)

/-- 30_encoding.md R51 and 60_exceptions.md R101: the first check that fails decides the fault, and a command with none that
fails is executed (it answers `OK`). -/
def Obligations.FirstFailingCheckDecidesTheFault : Prop :=
  ∀ (s : State) (c : CoreInst) (w : Word40), s.insts[s.cur]? = some c →
    (opIllegal w → exec (decode w) s = .next (s.answered 0x1000000000#40)) ∧
    (¬opIllegal w → lenIllegal w → exec (decode w) s = .next (s.answered 0x2000000000#40)) ∧
    (¬opIllegal w → ¬lenIllegal w → reservedSet w → exec (decode w) s = .next (s.answered 0x3000000000#40)) ∧
    (¬opIllegal w → ¬lenIllegal w → ¬reservedSet w → opField w ≠ 1 → c.seeded = false →
      exec (decode w) s = .next (s.answered 0x4000000000#40)) ∧
    (¬opIllegal w → ¬lenIllegal w → ¬reservedSet w → (opField w = 1 ∨ c.seeded = true) →
      ∃ t c' r, exec (decode w) s = .next t ∧ t.insts[s.cur]? = some c' ∧ c'.rsps = c.rsps ++ [r] ∧ rspStatus r = 0)

/-- 60_exceptions.md R102: a step whose response has a non-zero status took its command off the channel and delivered
`{code, 0, 0}`; `S` and `SEEDED` of the instance, and the other instances, are as before. -/
def Obligations.FaultingCommandChangesNothing : Prop :=
  ∀ (s t : State) (p : Nat) (c c' : CoreInst) (r : Word40), s.nextPort = some p → s.insts[p]? = some c →
    step s = .next t → t.insts[p]? = some c' → c'.rsps = c.rsps ++ [r] → rspStatus r ≠ 0 →
    r = rspStatus r ++ 0#36 ∧ c' = { c with cmds := c.cmds.tail, rsps := c.rsps ++ [r] } ∧
    ∀ q, q ≠ p → t.insts[q]? = s.insts[q]?

/-- 60_exceptions.md R104: a fault is not sticky. After a faulting transaction the State is as before it (but for the model's
own record `cur` of the port, DESIGN CHOICE, log 5), and any command list then runs as if the faulting command
had not been issued. -/
def Obligations.FaultIsNotSticky : Prop :=
  ∀ (s t : State) (p : Nat) (w r : Word40) (ws : List Word40), s.wf → s.drained p →
    s.transact p w = some (r, t) → rspStatus r ≠ 0 →
    t = { s with cur := p } ∧ (ws ≠ [] → t.transactAll (onPort p ws) = s.transactAll (onPort p ws))

/-! ### What each command does -/

/-- 40_generator.md R67: `SEED` writes the immediate and sets `SEEDED` whatever they were, answers `{0, 0, 0}` and draws
nothing; with a reserved bit set it faults and leaves both. Its operands are bits 31:0 and the reserved bits 35:32. -/
def Obligations.SeedLoadsTheImmediate : Prop :=
  (∀ w : Word40, opField w = 1 → decode w = .seed (lenField w) (dataField w)) ∧
  ∀ (s : State) (rsv : Nibble) (imm32 : Data), s.wf →
    (rsv = 0 → exec (.seed rsv imm32) s = .next (s.updInst s.cur fun c =>
      { S := imm32, seeded := true, cmds := c.cmds, rsps := c.rsps ++ [0x0000000000#40] })) ∧
    (rsv ≠ 0 → exec (.seed rsv imm32) s = .next (s.answered 0x3000000000#40))

/-- 40_generator.md R68: `NEXT` updates `S` and answers `{0, 1, k}` with the low byte of the new `S`; it faults on a reserved
bit and while `SEEDED = 0`; it is `XORB 0`. Its word has no operand, only the reserved bits 35:0. -/
def Obligations.NextDrawsOneByte : Prop :=
  (∀ w : Word40, opField w = 2 → decode w = .next (w.extractLsb' 0 36)) ∧
  ∀ (s : State) (c : CoreInst) (rsv : BitVec 36), s.insts[s.cur]? = some c →
    (rsv = 0 → c.seeded = true → exec (.next rsv) s = .next (s.updInst s.cur fun _ =>
      { S := lcg c.S, seeded := true, cmds := c.cmds,
        rsps := c.rsps ++ [0x01000000#32 ++ (lcg c.S).setWidth 8] })) ∧
    (rsv ≠ 0 → exec (.next rsv) s = .next (s.answered 0x3000000000#40)) ∧
    (rsv = 0 → c.seeded = false → exec (.next rsv) s = .next (s.answered 0x4000000000#40)) ∧
    exec (.next 0) s = exec (.xorb 0 0) s

/-- 41_cipher.md R73: `XORB d8` updates `S` whatever `d8` is and answers `{0, 1, d8 XOR k}` with the low byte `k` of the new
`S`; it faults on a reserved bit and while `SEEDED = 0`. Its operand is bits 7:0, its reserved bits are 35:8. -/
def Obligations.XorbXorsOneByte : Prop :=
  (∀ w : Word40, opField w = 3 → decode w = .xorb (w.extractLsb' 8 28) (w.extractLsb' 0 8)) ∧
  ∀ (s : State) (c : CoreInst) (rsv : BitVec 28) (d8 : Byte), s.insts[s.cur]? = some c →
    (rsv = 0 → c.seeded = true → exec (.xorb rsv d8) s = .next (s.updInst s.cur fun _ =>
      { S := lcg c.S, seeded := true, cmds := c.cmds,
        rsps := c.rsps ++ [0x01000000#32 ++ (d8 ^^^ (lcg c.S).setWidth 8)] })) ∧
    (rsv ≠ 0 → exec (.xorb rsv d8) s = .next (s.answered 0x3000000000#40)) ∧
    (rsv = 0 → c.seeded = false → exec (.xorb rsv d8) s = .next (s.answered 0x4000000000#40))

/-- 40_generator.md R69: `NEXTW len` leaves `lcg^len` of `S` and answers `{0, len, out}` with the byte of draw `j` in lane `j`
for `j < len` and 0 above; its three faults; `NEXTW 1` is `NEXT`. `len` is bits 35:32, bits 31:0 are reserved. -/
def Obligations.NextwDrawsItsLanes : Prop :=
  (∀ w : Word40, opField w = 4 → decode w = .nextw (lenField w) (dataField w)) ∧
  ∀ (s : State) (c : CoreInst) (len : Nibble) (rsv : Data), s.insts[s.cur]? = some c →
    (len.toNat = 0 ∨ 5 ≤ len.toNat → exec (.nextw len rsv) s = .next (s.answered 0x2000000000#40)) ∧
    (1 ≤ len.toNat → len.toNat ≤ 4 → rsv ≠ 0 → exec (.nextw len rsv) s = .next (s.answered 0x3000000000#40)) ∧
    (1 ≤ len.toNat → len.toNat ≤ 4 → rsv = 0 → c.seeded = false →
      exec (.nextw len rsv) s = .next (s.answered 0x4000000000#40)) ∧
    (1 ≤ len.toNat → len.toNat ≤ 4 → rsv = 0 → c.seeded = true → ∃ out : Data,
      exec (.nextw len rsv) s = .next (s.updInst s.cur fun _ =>
        { S := lcg^[len.toNat] c.S, seeded := true, cmds := c.cmds, rsps := c.rsps ++ [0x0#4 ++ len ++ out] }) ∧
      ∀ j, j < 4 → out.toNat / 2 ^ (8 * j) % 256 = if j < len.toNat then (lcg^[j + 1] c.S).toNat % 256 else 0) ∧
    exec (.nextw 1 0) s = exec (.next 0) s

/-- 41_cipher.md R74: `XORW len` leaves `lcg^len` of `S` and answers `{0, len, out}` with `d_j XOR k_j` in lane `j` for
`j < len` and 0 above; its three faults; `XORW 1, d` is `XORB d`. `len` is bits 35:32, the lanes are bits 31:0. -/
def Obligations.XorwXorsItsLanes : Prop :=
  (∀ w : Word40, opField w = 5 → decode w = .xorw (lenField w) (dataField w)) ∧
  ∀ (s : State) (c : CoreInst) (len : Nibble) (data : Data), s.insts[s.cur]? = some c →
    (len.toNat = 0 ∨ 5 ≤ len.toNat → exec (.xorw len data) s = .next (s.answered 0x2000000000#40)) ∧
    (1 ≤ len.toNat → len.toNat ≤ 4 → data.toNat / 2 ^ (8 * len.toNat) ≠ 0 →
      exec (.xorw len data) s = .next (s.answered 0x3000000000#40)) ∧
    (1 ≤ len.toNat → len.toNat ≤ 4 → data.toNat / 2 ^ (8 * len.toNat) = 0 → c.seeded = false →
      exec (.xorw len data) s = .next (s.answered 0x4000000000#40)) ∧
    (1 ≤ len.toNat → len.toNat ≤ 4 → data.toNat / 2 ^ (8 * len.toNat) = 0 → c.seeded = true → ∃ out : Data,
      exec (.xorw len data) s = .next (s.updInst s.cur fun _ =>
        { S := lcg^[len.toNat] c.S, seeded := true, cmds := c.cmds, rsps := c.rsps ++ [0x0#4 ++ len ++ out] }) ∧
      ∀ j, j < 4 → out.toNat / 2 ^ (8 * j) % 256 =
        if j < len.toNat then data.toNat / 2 ^ (8 * j) % 256 ^^^ (lcg^[j + 1] c.S).toNat % 256 else 0) ∧
    ∀ d : Byte, exec (.xorw 1 (d.setWidth 32)) s = exec (.xorb 0 d) s

/-- 30_encoding.md R50: a word of one of the three illegal ranges answers `ILLEGAL_OPCODE` whatever its other bits, and changes
nothing else. Taking that fault is the whole of what the row does. -/
def Obligations.IllegalRowsAnswerIllegalOpcode : Prop :=
  ∀ s : State, s.wf →
    (∀ rest, exec (.illegalOp0 rest) s = .next (s.answered 0x1000000000#40)) ∧
    (∀ rest, exec (.illegalOp67 rest) s = .next (s.answered 0x1000000000#40)) ∧
    (∀ rest, exec (.illegalOp8F rest) s = .next (s.answered 0x1000000000#40))

/-- The frame of every command: other instances, the command channel, the earlier responses and the model's own fields stay;
one response is added; `SEEDED` is written by `SEED` only; an illegal encoding writes neither `S` nor `SEEDED`
(10_state.md R13, R15, R23; 20_memory.md R27). -/
def Obligations.CommandsChangeTheirOwnInstanceOnly : Prop :=
  ∀ (i : Instr) (s t : State) (c c' : CoreInst), exec i s = .next t → s.insts[s.cur]? = some c →
    t.insts[s.cur]? = some c' →
    t.cur = s.cur ∧ t.sched = s.sched ∧ t.rspDepth = s.rspDepth ∧ t.insts.length = s.insts.length ∧
    (∀ p, p ≠ s.cur → t.insts[p]? = s.insts[p]?) ∧
    c'.cmds = c.cmds ∧ (∃ r, c'.rsps = c.rsps ++ [r]) ∧
    ((∀ rsv imm32, i ≠ .seed rsv imm32) → c'.seeded = c.seeded) ∧
    (i.wf = false → c'.S = c.S ∧ c'.seeded = c.seeded)

/-! ### Arithmetic -/

/-- 40_generator.md R55: the seed is reduced to the one value below 2^32 that is congruent to it; the rule's examples. -/
def Obligations.SeedsAreReducedModuloTwoToThe32 : Prop :=
  (∀ z : Int, ((norm32 z).toNat : Int) = z % 2 ^ 32 ∧
    ∀ v : Nat, v < 2 ^ 32 → (2 ^ 32 : Int) ∣ z - v → v = (norm32 z).toNat) ∧
  norm32 42 = 42#32 ∧ norm32 (2 ^ 32 - 1) = 4294967295#32 ∧ norm32 (2 ^ 32) = 0#32 ∧ norm32 (2 ^ 32 + 42) = 42#32 ∧
  norm32 (-1) = 0xFFFFFFFF#32 ∧ norm32 (-42) = 0xFFFFFFD6#32 ∧ norm32 (2 ^ 64 + 99) = 99#32

/-- 40_generator.md R56: the update is the exact integer `A * s + C`, which is below 2^53, modulo 2^32. -/
def Obligations.UpdateIsTheRecurrence : Prop :=
  ∀ s : Data, (lcg s).toNat = (1664525 * s.toNat + 1013904223) % 2 ^ 32 ∧ 1664525 * s.toNat + 1013904223 < 2 ^ 53

/-- 40_generator.md R57: a 64-bit accumulator masked after the multiply, after the add or after both gives the same 32 bits. -/
def Obligations.WiderAccumulatorsAgree : Prop :=
  ∀ s : Data,
    let a := 1664525#64 * s.setWidth 64
    ((a &&& 0xFFFFFFFF#64) + 1013904223#64).setWidth 32 = lcg s ∧
    (a + 1013904223#64) &&& 0xFFFFFFFF#64 = (lcg s).setWidth 64 ∧
    ((a &&& 0xFFFFFFFF#64) + 1013904223#64) &&& 0xFFFFFFFF#64 = (lcg s).setWidth 64

/-- 40_generator.md R62: congruent seeds are one seed, and reducing before or after the first update is the same. -/
def Obligations.CongruentSeedsHaveOneKeystream : Prop :=
  (∀ z₁ z₂ : Int, z₁ % 2 ^ 32 = z₂ % 2 ^ 32 → ∀ n, KS z₁ n = KS z₂ n) ∧
  ∀ z : Int, ((stateSeq z 1).toNat : Int) = (1664525 * z + 1013904223) % 2 ^ 32

/-- 40_generator.md R63: the keystream is a function of the seed's low byte, goes through the map `13k + 95` modulo 256, has
period 256, and every window of 256 holds every byte exactly once. -/
def Obligations.KeystreamIsOneCycleOf256 : Prop :=
  Config.A.toNat % 256 = 13 ∧ Config.C.toNat % 256 = 95 ∧
  ∀ z : Int,
    ((keystream z 0).toNat : Int) = (13 * (z % 256) + 95) % 256 ∧
    (∀ i, (keystream z (i + 1)).toNat = (13 * (keystream z i).toNat + 95) % 256) ∧
    (∀ i, keystream z (i + 256) = keystream z i) ∧
    (∀ i (b : Byte), ∃! j, j < 256 ∧ keystream z (i + j) = b) ∧
    ∀ (z' : Int) (n : Nat), 1 ≤ n → (KS z n = KS z' n ↔ z % 256 = z' % 256)

/-- 40_generator.md R64: `k` updates are one affine map, with the constants of the rule's table. -/
def Obligations.UpdatesJumpAheadByOneAffineMap : Prop :=
  (∀ (k : Nat) (s : Data), lcg^[k] s = jumpA k * s + jumpC k) ∧
  (jumpA 1 = 1664525#32 ∧ jumpC 1 = 1013904223#32) ∧
  (∀ k, jumpA (k + 1) = 1664525#32 * jumpA k ∧ jumpC (k + 1) = 1664525#32 * jumpC k + 1013904223#32) ∧
  (jumpA 2 = 389569705#32 ∧ jumpC 2 = 1196435762#32) ∧ (jumpA 3 = 2940799637#32 ∧ jumpC 3 = 3519870697#32) ∧
  (jumpA 4 = 158984081#32 ∧ jumpC 4 = 2868466484#32) ∧ (jumpA 8 = 3934847009#32 ∧ jumpC 8 = 2748932008#32) ∧
  (jumpA 256 = 1045939201#32 ∧ jumpC 256 = 43164928#32)

/-- 40_generator.md R65: the update is a bijection with the rule's inverse, no state is a fixed point, and the state sequence
of every seed goes through every value exactly once in 2^32 updates and is then back at the seed. -/
def Obligations.UpdateIsOneCycleOfAllStates : Prop :=
  (∀ s : Data, lcgInv (lcg s) = s ∧ lcg (lcgInv s) = s ∧ lcg s ≠ s) ∧
  ∀ s v : Data, lcg^[2 ^ 32] s = s ∧ ∃! k, k < 2 ^ 32 ∧ lcg^[k] s = v

/-- 41_cipher.md R72: the laws of XOR on bytes; zero data is the raw keystream; a response XOR the data sent is the keystream;
two ciphertexts of one seed XOR to the XOR of the plaintexts. -/
def Obligations.XorWithTheKeystreamCancels : Prop :=
  (∀ d k : Byte, (d ^^^ k) ^^^ k = d ∧ d ^^^ 0 = d ∧ 0 ^^^ k = k ∧ d ^^^ k = k ^^^ d ∧ d ^^^ d = 0) ∧
  (∀ (s : State), exec (.xorb 0 0) s = exec (.next 0) s ∧ ∀ len, exec (.xorw len 0) s = exec (.nextw len 0) s) ∧
  (∀ (z : Int) (P : List Byte), xorBytes (encrypt z P) P = KS z P.length) ∧
  ∀ (z : Int) (P Q : List Byte), P.length = Q.length → xorBytes (encrypt z P) (encrypt z Q) = xorBytes P Q

/-- 20_memory.md R37: `SEED` twice with one immediate is `SEED` once in `S` and `SEEDED`; a draw always moves `S`, so the
same draw word does not leave the state it found; taking a response moves neither `S` nor `SEEDED` of any instance. -/
def Obligations.SeedIsIdempotentAndDrawsAreNot : Prop :=
  (∀ (imm : Data) (c : CoreInst),
    (CoreInst.seed 0 imm (CoreInst.seed 0 imm c)).S = (CoreInst.seed 0 imm c).S ∧
    (CoreInst.seed 0 imm (CoreInst.seed 0 imm c)).seeded = (CoreInst.seed 0 imm c).seeded) ∧
  (∀ (i : Instr) (s t : State) (c c' : CoreInst), s.insts[s.cur]? = some c → c.seeded = true → i.wf = true →
    (∀ rsv imm, i ≠ .seed rsv imm) → exec i s = .next t → t.insts[s.cur]? = some c' → c'.S ≠ c.S) ∧
  ∀ (s : State) (p q : Nat),
    ((s.take p).2.insts[q]?).map (fun c => (c.S, c.seeded)) = (s.insts[q]?).map fun c => (c.S, c.seeded)

/-! ### The block operations -/

/-- 42_block_operations.md R84: whatever the split into draw commands, after `SEED z` the valid lanes of the responses are
`d_i XOR k_i`, no command faults, and the State is as before but for the port's `S = s_n` and `SEEDED = 1` and the model's
own record `cur` of the port it served (DESIGN CHOICE, log 5; no rule of the spec). -/
def Obligations.EverySplitDrawsTheSameStream : Prop :=
  ∀ (s : State) (p : Nat) (z : Int) (ds : List DrawCmd), s.wf → s.drained p → (∀ d ∈ ds, d.ok = true) →
    ∃ rs, s.transactAll (onPort p (splitWords z ds)) = some (rs, { s.updInst p (fun _ =>
        { S := stateSeq z (carriedBy ds).length, seeded := true, cmds := [], rsps := [] }) with cur := p }) ∧
      noFaultSeen rs = true ∧ validBytes rs = xorBytes (carriedBy ds) (KS z (carriedBy ds).length)

/-- 42_block_operations.md R81: `KEYSTREAM z, n`, by `NEXT` alone or by any split into `NEXT` and `NEXTW` whose lengths sum to
`n`, returns `KS(z, n)`. -/
def Obligations.KeystreamMacroReturnsTheKeystream : Prop :=
  ∀ (s : State) (p : Nat) (z : Int) (n : Nat), s.wf → s.drained p →
    (∃ ws rs t, assemble (.keystream z n) = some ws ∧ s.transactAll (onPort p ws) = some (rs, t) ∧
      validBytes rs = KS z n) ∧
    ∀ ds : List DrawCmd, (∀ d ∈ ds, d.ok = true ∧ d.isKeystream = true) → (carriedBy ds).length = n →
      ∃ rs t, s.transactAll (onPort p (splitWords z ds)) = some (rs, t) ∧ validBytes rs = KS z n

/-- 42_block_operations.md R82: `ENCRYPT z, P`, by `XORB` alone or by any split into `XORB` and `XORW` that carries the same
bytes, returns `encrypt(z, P)` after exactly `n` draws. -/
def Obligations.EncryptMacroReturnsTheCiphertext : Prop :=
  ∀ (s : State) (p : Nat) (z : Int) (P : List Byte), s.wf → s.drained p →
    (∃ ws rs t c, assemble (.encrypt z (P.map BitVec.toNat)) = some ws ∧ s.transactAll (onPort p ws) = some (rs, t) ∧
      validBytes rs = encrypt z P ∧ t.insts[p]? = some c ∧ c.S = stateSeq z P.length) ∧
    ∀ ds : List DrawCmd, (∀ d ∈ ds, d.ok = true ∧ d.isKeystream = false) → carriedBy ds = P →
      ∃ rs t c, s.transactAll (onPort p (splitWords z ds)) = some (rs, t) ∧
        validBytes rs = encrypt z P ∧ t.insts[p]? = some c ∧ c.S = stateSeq z P.length

/-- 42_block_operations.md R83, R88 on the core: what one instance enciphers with one split, any instance deciphers with any
other split and the same seed. -/
def Obligations.AnySplitDeciphersAnyOther : Prop :=
  ∀ (s s' t : State) (p p' : Nat) (z : Int) (ds ds' : List DrawCmd) (rs : List Word40), s.wf → s.drained p →
    s'.wf → s'.drained p' → (∀ d ∈ ds, d.ok = true) → (∀ d ∈ ds', d.ok = true) →
    s.transactAll (onPort p (splitWords z ds)) = some (rs, t) → carriedBy ds' = validBytes rs →
    ∃ rs' t', s'.transactAll (onPort p' (splitWords z ds')) = some (rs', t') ∧ validBytes rs' = carriedBy ds

/-- 42_block_operations.md R85: the expansions of the three macros never fault, for any seed and any bytes; nor does any legal
command list that starts with its one `SEED`. -/
def Obligations.BlockOperationsNeverFault : Prop :=
  (∀ (s : State) (p : Nat) (l : AsmLine) (ws : List Word40), s.wf → s.drained p →
    ((∃ z n, l = .keystream z n) ∨ (∃ z ps, l = .encrypt z ps) ∨ (∃ z cs, l = .decrypt z cs)) →
    assemble l = some ws → ∃ rs t, s.transactAll (onPort p ws) = some (rs, t) ∧ noFaultSeen rs = true) ∧
  ∀ (s : State) (p : Nat) (ws : List Word40), s.wf → s.drained p → isBlockStream ws = true → allLegal ws = true →
    ∃ rs t, s.transactAll (onPort p ws) = some (rs, t) ∧ noFaultSeen rs = true

/-- 42_block_operations.md R88 and R89: both directions keep the length, and deciphering with a seed that agrees modulo 256
gives the plaintext back. -/
def Obligations.DecryptOfEncryptIsThePlaintext : Prop :=
  (∀ (z₁ z₂ : Int) (P : List Byte), z₁ % 256 = z₂ % 256 → decrypt z₂ (encrypt z₁ P) = P) ∧
  ∀ (z : Int) (P : List Byte), (encrypt z P).length = P.length ∧ (decrypt z P).length = P.length

/-- 42_block_operations.md R90: with a wrong seed the length is kept and every byte is determined; it is the plaintext byte
everywhere if the seeds agree modulo 256, and nowhere otherwise. -/
def Obligations.WrongSeedDiffersAtEveryByte : Prop :=
  ∀ (z₁ z₂ : Int) (P : List Byte), (decrypt z₂ (encrypt z₁ P)).length = P.length ∧
    ∀ (i : Nat) (b : Byte), P[i]? = some b →
      (decrypt z₂ (encrypt z₁ P))[i]? = some (b ^^^ keystream z₁ i ^^^ keystream z₂ i) ∧
      (b ^^^ keystream z₁ i ^^^ keystream z₂ i = b ↔ z₁ % 256 = z₂ % 256)

/-- 42_block_operations.md R91: the exact law of seed sensitivity, the rule's two ciphertexts of `HELLO`, and the share of the
seeds below 2^32 that give the ciphertext of a given seed: 2^24 of them, one in 256. -/
def Obligations.CiphertextsAgreeExactlyModulo256 : Prop :=
  (∀ (z₁ z₂ : Int) (P : List Byte), P ≠ [] → (encrypt z₁ P = encrypt z₂ P ↔ z₁ % 256 = z₂ % 256)) ∧
  encrypt 1 [0x48, 0x45, 0x4C, 0x4C, 0x4F] = [0x24, 0x9E, 0x32, 0x89, 0x2F] ∧
  encrypt 2 [0x48, 0x45, 0x4C, 0x4C, 0x4F] = [0x31, 0xC1, 0x5F, 0x1A, 0xF2] ∧
  (∀ P : List Byte, encrypt 1 P = encrypt 257 P) ∧
  ∀ (z : Int) (P : List Byte), P ≠ [] →
    {n : Nat | n < 2 ^ 32 ∧ encrypt z P = encrypt (n : Int) P}.ncard = 2 ^ 24

/-- 42_block_operations.md R92 (90_conflicts.md C1), R93 and R94: the first byte of the keystream of 42 is 129; the seeds at
and above the modulus; the end-to-end scenario of seed 99; each with the rule's working. -/
def Obligations.SeedsOfTheRulesGiveTheirBytes : Prop :=
  (1664525 * 42 = 69910050 ∧ 69910050 + 1013904223 = 1083814273 ∧ stateSeq 42 1 = 0x4099B181#32 ∧
    (stateSeq 42 1).toNat = 1083814273 ∧ keystream 42 0 = 129#8) ∧
  (norm32 (2 ^ 32 - 1) = 0xFFFFFFFF#32 ∧ stateSeq (2 ^ 32 - 1) 1 = 0x3C558D52#32 ∧ keystream (2 ^ 32 - 1) 0 = 82#8 ∧
    1664525 * 4294967295 = 7149080436709875 ∧ 7149080436709875 + 1013904223 = 7149081450614098 ∧
    7149081450614098 % 2 ^ 32 = 0x3C558D52 ∧ 2 ^ 52 ≤ 7149080436709875 ∧ 7149081450614098 < 2 ^ 53 ∧
    ∀ n, KS (2 ^ 32) n = KS 0 n ∧ KS (2 ^ 32 + 42) n = KS 42 n ∧ KS (-1) n = KS (2 ^ 32 - 1) n) ∧
  (encrypt 99 [] = [] ∧ stateSeq 99 1 = 0x46416A66#32 ∧ keystream 99 0 = 0x66#8 ∧ encrypt 99 [0x41] = [0x27])

/-! ### The assembler -/

/-- 30_encoding.md R52, R53: every line but `RAW` assembles to legal words only. -/
def Obligations.AssembledWordsAreLegal : Prop :=
  ∀ (l : AsmLine) (ws : List Word40), assemble l = some ws → (∀ w, l ≠ .raw w) → ∀ w ∈ ws, (decode w).wf = true

/-- 30_encoding.md R52, R53: what each line encodes as, and which lines the assembler refuses; the aliases are their command.
That a `RAW` word of 2^40 or more is refused is the model's choice (DESIGN CHOICE, log 11): R52 gives the range of `RAW` and
does not name it among the refusals. -/
def Obligations.AssemblerEncodesOrRefuses : Prop :=
  (∀ z, assemble (.seed z) = some [0x10#8 ++ norm32 z]) ∧ assemble .next = some [0x2000000000#40] ∧
  (∀ b, assemble (.xorb b) = if b ≤ 255 then some [0x3000000000#40 + BitVec.ofNat 40 b] else none) ∧
  (∀ n, assemble (.nextw n) = if 1 ≤ n ∧ n ≤ 4 then some [0x4#4 ++ BitVec.ofNat 4 n ++ 0#32] else none) ∧
  (∀ n bs, (1 ≤ n ∧ n ≤ 4 ∧ bs.length = n ∧ ∀ b ∈ bs, b ≤ 255) →
    ∃ data : Data, assemble (.xorw n bs) = some [0x5#4 ++ BitVec.ofNat 4 n ++ data] ∧
      ∀ j, j < 4 → data.toNat / 2 ^ (8 * j) % 256 = bs.getD j 0) ∧
  (∀ n bs, ¬(1 ≤ n ∧ n ≤ 4 ∧ bs.length = n ∧ ∀ b ∈ bs, b ≤ 255) → assemble (.xorw n bs) = none) ∧
  (∀ w, assemble (.raw w) = if w < 2 ^ 40 then some [BitVec.ofNat 40 w] else none) ∧
  (∀ b, assemble (.encb b) = assemble (.xorb b) ∧ assemble (.decb b) = assemble (.xorb b)) ∧
  (∀ n bs, assemble (.encw n bs) = assemble (.xorw n bs) ∧ assemble (.decw n bs) = assemble (.xorw n bs)) ∧
  ∀ z bs, assemble (.decrypt z bs) = assemble (.encrypt z bs)

/-! ### Steps, channels and runs -/

/-- A step takes the oldest word of the served instance's command channel and executes what it decodes to, in the State
without that word (20_memory.md R27, R38, R41). `cur` and `sched`, which record the port and pass the turn, are the model's
own (DESIGN CHOICE, log 5). -/
def Obligations.StepExecutesTheOldestWord : Prop :=
  ∀ (s : State) (p : Nat) (c : CoreInst) (w : Word40) (ws : List Word40), s.nextPort = some p → s.insts[p]? = some c →
    c.cmds = w :: ws →
    step s = exec (decode w) { s with
      insts := s.insts.set p { c with cmds := ws }, cur := p, sched := s.sched.tail }

/-- The step after `withFetchWord` executes exactly that word on the current instance (the model's own load, log 10). -/
def Obligations.PlacedWordIsExecutedNext : Prop :=
  ∀ (s : State) (c : CoreInst) (nbits w : Nat), s.wf → s.insts[s.cur]? = some c →
    step (s.withFetchWord nbits w) = exec (decode (BitVec.ofNat 40 (w % 2 ^ nbits))) (s.updInst s.cur fun c =>
      { c with rsps := if c.hasRoom s.rspDepth then c.rsps else [] })

/-- The order of service (the model's choice, log 5): the head of `sched` if it can move, and with an empty `sched` the lowest
numbered instance that can. A step in which none moves only passes the turn. -/
def Obligations.ServiceFollowsTheOrderGiven : Prop :=
  (∀ (s : State) (p q : Nat) (ps : List Nat), s.sched = p :: ps → (s.nextPort = some q ↔ q = p ∧ s.ready p = true)) ∧
  (∀ (s : State) (q : Nat), s.sched = [] → (s.nextPort = some q ↔ s.ready q = true ∧ ∀ p, p < q → s.ready p = false)) ∧
  ∀ s : State, s.nextPort = none → step s = .next { s with sched := s.sched.tail }

/-- 10_state.md R15: `S` is written by a legal `SEED` (its immediate) and by the draws of a seeded instance (`lcg` of it, once
a draw), by nothing else: not by another instance, not by a host move other than reset. -/
def Obligations.OnlySeedAndDrawsWriteS : Prop :=
  ∀ (s t : State) (e : Event) (os : List Observation) (p : Nat) (c c' : CoreInst), s.event e = some (os, t) →
    (∀ L, e ≠ .reset L) → s.insts[p]? = some c → t.insts[p]? = some c' → c'.S ≠ c.S →
    e = .step ∧ s.nextPort = some p ∧ ∃ w, c.cmds.head? = some w ∧ (decode w).wf = true ∧
      ((∃ imm, decode w = .seed 0 imm ∧ c'.S = imm) ∨
       (opField w ≠ 1 ∧ c.seeded = true ∧ ∃ n, 1 ≤ n ∧ n ≤ 4 ∧ c'.S = lcg^[n] c.S))

/-- 10_state.md R18: nothing but reset clears `SEEDED`, and nothing but a legal `SEED` sets it. -/
def Obligations.OnlySeedAndResetWriteSeeded : Prop :=
  ∀ (s t : State) (e : Event) (os : List Observation) (p : Nat) (c c' : CoreInst), s.event e = some (os, t) →
    s.insts[p]? = some c → t.insts[p]? = some c' →
    (c.seeded = true → c'.seeded = false → ∃ L, e = .reset L) ∧
    (c.seeded = false → c'.seeded = true →
      e = .step ∧ s.nextPort = some p ∧ ∃ imm, c.cmds.head? = some (encode (.seed 0 imm)))

/-- 60_exceptions.md R113: an instance that receives no command keeps `S` and `SEEDED` through any run without a reset. -/
def Obligations.IdleInstanceKeepsItsState : Prop :=
  ∀ (es : List Event) (s t : State) (os : List Observation) (p : Nat) (c : CoreInst), noReset es = true →
    presentedTo p es = [] → s.insts[p]? = some c → c.cmds = [] → s.runEvents es = some (os, t) →
    ∃ c', t.insts[p]? = some c' ∧ c'.S = c.S ∧ c'.seeded = c.seeded ∧ c'.cmds = []

/-- 60_exceptions.md R106, one command: on every instance, `SEEDED` and word, the machine does what the rule's step function,
transcribed with unbounded numbers, says. -/
def Obligations.CommandIsTheReferenceStep : Prop :=
  ∀ (s : State) (c : CoreInst) (w : Word40), s.insts[s.cur]? = some c →
    ∃ (S' : Data) (seeded' : Bool) (r : Word40),
      refStep c.S.toNat c.seeded w.toNat = (S'.toNat, seeded', r.toNat) ∧
      exec (decode w) s = .next (s.updInst s.cur fun _ =>
        { S := S', seeded := seeded', cmds := c.cmds, rsps := c.rsps ++ [r] })

/-- 60_exceptions.md R106, 20_memory.md R27, R38: in every run without a reset, with any host moves on any ports and any order
of service, the words an instance has executed are a prefix of the words presented to it, in order, and the responses taken
from it followed by those still in its channel are the fold of the reference step over them. -/
def Obligations.EveryRunIsTheFoldOfTheReferenceStep : Prop :=
  ∀ (es : List Event) (s t : State) (os : List Observation) (p : Nat) (c : CoreInst), noReset es = true →
    s.insts[p]? = some c → c.cmds = [] → c.rsps = [] → s.runEvents es = some (os, t) →
    ∃ (c' : CoreInst) (done : List Word40), t.insts[p]? = some c' ∧ presentedTo p es = done ++ c'.cmds ∧
      refRun (done.map BitVec.toNat) c.S.toNat c.seeded =
        (c'.S.toNat, c'.seeded, (takenFrom p os ++ c'.rsps).map BitVec.toNat)

/-- 20_memory.md R39: two runs that present the same words to an instance and end with its channels empty take the same
responses from it and leave it the same, whatever the rest of the core and the order of service were. -/
def Obligations.InstancesDoNotInterfere : Prop :=
  ∀ (es₁ es₂ : List Event) (s₁ s₂ t₁ t₂ : State) (os₁ os₂ : List Observation) (p₁ p₂ : Nat) (c : CoreInst),
    noReset es₁ = true → noReset es₂ = true → s₁.insts[p₁]? = some c → s₂.insts[p₂]? = some c →
    c.cmds = [] → c.rsps = [] → s₁.runEvents es₁ = some (os₁, t₁) → s₂.runEvents es₂ = some (os₂, t₂) →
    presentedTo p₁ es₁ = presentedTo p₂ es₂ → t₁.drained p₁ → t₂.drained p₂ →
    takenFrom p₁ os₁ = takenFrom p₂ os₂ ∧ t₁.insts[p₁]? = t₂.insts[p₂]?

/-- 40_generator.md R61: the responses to the commands that follow a `SEED` do not depend on the instance, on what it held or
did before, or on anything else in the core. -/
def Obligations.ResponsesAfterSeedDependOnTheSeedOnly : Prop :=
  ∀ (s₁ s₂ : State) (p₁ p₂ : Nat) (z : Int) (ws : List Word40), s₁.wf → s₂.wf → s₁.drained p₁ → s₂.drained p₂ →
    ∃ rs t₁ t₂, s₁.transactAll (onPort p₁ (seedWord z :: ws)) = some (rs, t₁) ∧
      s₂.transactAll (onPort p₂ (seedWord z :: ws)) = some (rs, t₂) ∧ t₁.insts[p₁]? = t₂.insts[p₂]?

/-- 10_state.md R25: after a reset every instance has `SEEDED = 0`, and whatever `S` is left at, no run can tell. -/
def Obligations.StateLeftByResetIsUnobservable : Prop :=
  ∀ (s : State) (L L' : List Data), (∀ c ∈ (s.coreReset L).insts, c.seeded = false) ∧
    ∀ es : List Event, ((s.coreReset L).runEvents es).map Prod.fst = ((s.coreReset L').runEvents es).map Prod.fst

/-- 10_state.md R16, 40_generator.md R63: bits 31:8 of `S` are never observed, nor any bit before a seed: two States that
agree but for those give the same observations in every run. -/
def Obligations.HighBitsOfSAreUnobservable : Prop :=
  ∀ (es : List Event) (s s' : State), s.visible = s'.visible →
    (s.runEvents es).map Prod.fst = (s'.runEvents es).map Prod.fst

/-- 70_reset_and_hazards.md R115: after a reset every instance has `SEEDED = 0` and empty channels, its `S` may hold any
value, and a legal draw faults `UNSEEDED`; the instances are as many as before. -/
def Obligations.ResetClearsSeededAndEmptiesTheChannels : Prop :=
  ∀ (s : State) (L : List Data), (s.coreReset L).insts.length = s.insts.length ∧
    (∀ c ∈ (s.coreReset L).insts, c.seeded = false ∧ c.cmds = [] ∧ c.rsps = []) ∧
    (∀ p, p < s.insts.length → ∀ v : Data, ∃ L' c, (s.coreReset L').insts[p]? = some c ∧ c.S = v) ∧
    ∀ (p : Nat) (i : Instr), p < s.insts.length → i.wf = true → (∀ imm, i ≠ .seed 0 imm) →
      exec i { s.coreReset L with cur := p } = .next ({ s.coreReset L with cur := p }.answered 0x4000000000#40)

/-- The State right after reset satisfies the invariant, with any number of instances (the values of log 1, 2 and 3). -/
def Obligations.ResetSatisfiesTheInvariant : Prop :=
  State.reset.Inv ∧ ∀ n, 1 ≤ n → (State.resetN n).Inv

/-- From every State with the invariant a step answers a next State with the invariant: the machine never stops, and every
response waiting in a channel has the form of 30_encoding.md R44. -/
def Obligations.StepKeepsTheInvariant : Prop :=
  ∀ s : State, s.Inv → ∃ t, step s = .next t ∧ t.Inv

/-- Every run, with any host moves and resets, completes from a State with the invariant and keeps it, and every response the
host takes has the form of 30_encoding.md R44. -/
def Obligations.EveryRunKeepsTheInvariant : Prop :=
  ∀ (es : List Event) (s : State), s.Inv → ∃ os t, s.runEvents es = some (os, t) ∧ t.Inv ∧ ∀ o ∈ os, rspWf o.2

/-- 70_reset_and_hazards.md R123: an instance whose response channel is full waits, and does not keep another from moving. The
depth of the channel and the turn of an instance are the model's own (DESIGN CHOICE, log 3 and log 5). -/
def Obligations.FullResponseChannelStallsItsOwnInstanceOnly : Prop :=
  (∀ (s t : State) (p d : Nat) (c : CoreInst), s.rspDepth = some d → s.insts[p]? = some c → d ≤ c.rsps.length →
    step s = .next t → t.insts[p]? = some c) ∧
  ∀ (s : State) (q : Nat) (c : CoreInst) (w : Word40), s.insts[q]? = some c → c.cmds.head? = some w →
    c.hasRoom s.rspDepth = true →
    step { s with sched := q :: s.sched } = exec (decode w) { s.updInst q (fun c => { c with cmds := c.cmds.tail }) with
      cur := q }

/-- 70_reset_and_hazards.md R124: every presented command is executed in the end. With responses that always find room and no
order of service given (DESIGN CHOICE, log 3 and log 5), as many steps as there are waiting commands execute them all. -/
def Obligations.WaitingCommandsAreAllExecuted : Prop :=
  ∀ s : State, s.wf → s.rspDepth = none → s.sched = [] →
    ∃ t, Host.Core.run core ((s.insts.map fun c => c.cmds.length).sum) s = .next t ∧ (∀ c ∈ t.insts, c.cmds = []) ∧
      ∀ (p : Nat) (c c' : CoreInst), s.insts[p]? = some c → t.insts[p]? = some c' →
        c'.rsps.length = c.rsps.length + c.cmds.length
end

