-- ==== Sys2Proof/Laws/Words.lean ====
section
/-! SUPPORT. The fields of command and response words as numbers. -/

namespace Sys2Proof.Machine

/-- Concatenation as arithmetic. -/
theorem append_toNat {m n : Nat} (x : BitVec m) (y : BitVec n) : (x ++ y).toNat = x.toNat * 2 ^ n + y.toNat := by
  rw [BitVec.toNat_append, ← Nat.shiftLeft_add_eq_or_of_lt y.isLt, Nat.shiftLeft_eq]

theorem rspWord_toNat (st len : Nibble) (d : Data) :
    (rspWord st len d).toNat = st.toNat * 2 ^ 36 + len.toNat * 2 ^ 32 + d.toNat := by
  show (st ++ len ++ d).toNat = _
  rw [append_toNat, append_toNat]; omega

theorem rspStatus_toNat (r : Word40) : (rspStatus r).toNat = r.toNat / 2 ^ 36 := by
  rw [rspStatus, BitVec.extractLsb'_toNat, Nat.shiftRight_eq_div_pow]; omega
theorem rspLen_toNat (r : Word40) : (rspLen r).toNat = r.toNat / 2 ^ 32 % 16 := by
  rw [rspLen, BitVec.extractLsb'_toNat, Nat.shiftRight_eq_div_pow]
theorem rspData_toNat (r : Word40) : (rspData r).toNat = r.toNat % 2 ^ 32 := by
  rw [rspData, BitVec.extractLsb'_toNat, Nat.shiftRight_eq_div_pow]; omega
theorem opField_toNat (r : Word40) : (opField r).toNat = r.toNat / 2 ^ 36 := rspStatus_toNat r
theorem lenField_toNat (r : Word40) : (lenField r).toNat = r.toNat / 2 ^ 32 % 16 := rspLen_toNat r
theorem dataField_toNat (r : Word40) : (dataField r).toNat = r.toNat % 2 ^ 32 := rspData_toNat r

@[simp] theorem rspStatus_rspWord (st len : Nibble) (d : Data) : rspStatus (rspWord st len d) = st := by
  apply BitVec.eq_of_toNat_eq
  rw [rspStatus_toNat, rspWord_toNat]; omega

@[simp] theorem rspLen_rspWord (st len : Nibble) (d : Data) : rspLen (rspWord st len d) = len := by
  apply BitVec.eq_of_toNat_eq
  rw [rspLen_toNat, rspWord_toNat]; omega

@[simp] theorem rspData_rspWord (st len : Nibble) (d : Data) : rspData (rspWord st len d) = d := by
  apply BitVec.eq_of_toNat_eq
  rw [rspData_toNat, rspWord_toNat]; omega

end Sys2Proof.Machine
end

