-- ==== Sys2Proof/Laws/Decode.lean ====
section
/-! SUPPORT. What the decoder answers, said once: the row that selects a word, and why a word is rejected. -/

namespace Sys2Proof.Machine

/-- The row of the opcode table that selects a word (30_encoding.md R48). -/
theorem decode_cases (w : Word40) :
    (opField w = 0 ∧ decode w = .illegalOp0 (w.extractLsb' 0 36)) ∨
    (opField w = 1 ∧ decode w = .seed (lenField w) (dataField w)) ∨
    (opField w = 2 ∧ decode w = .next (w.extractLsb' 0 36)) ∨
    (opField w = 3 ∧ decode w = .xorb (w.extractLsb' 8 28) (w.extractLsb' 0 8)) ∨
    (opField w = 4 ∧ decode w = .nextw (lenField w) (dataField w)) ∨
    (opField w = 5 ∧ decode w = .xorw (lenField w) (dataField w)) ∨
    ((opField w = 6 ∨ opField w = 7) ∧ decode w = .illegalOp67 (w.extractLsb' 0 37)) ∨
    (8 ≤ (opField w).toNat ∧ decode w = .illegalOp8F (w.extractLsb' 0 39)) := by
  have h8 : ∀ o : Nibble, o = 0 ∨ o = 1 ∨ o = 2 ∨ o = 3 ∨ o = 4 ∨ o = 5 ∨ (o = 6 ∨ o = 7) ∨ 8 ≤ o.toNat := by decide
  rcases h8 (opField w) with h | h | h | h | h | h | h | h
  · simp [decode, h]
  · simp [decode, h]
  · simp [decode, h]
  · simp [decode, h]
  · simp [decode, h]
  · simp [decode, h]
  · rcases h with h | h <;> simp [decode, h]
  · have : ∀ o : Nibble, 8 ≤ o.toNat → ¬ o = 0 ∧ ¬ o = 1 ∧ ¬ o = 2 ∧ ¬ o = 3 ∧ ¬ o = 4 ∧ ¬ o = 5 ∧ ¬ o = 6 ∧ ¬ o = 7 := by decide
    obtain ⟨h0, h1, h2, h3, h4, h5, h6, h7⟩ := this _ h
    refine .inr (.inr (.inr (.inr (.inr (.inr (.inr ⟨h, ?_⟩))))))
    simp only [decode, if_neg h0, if_neg h1, if_neg h2, if_neg h3, if_neg h4, if_neg h5, h6, h7, or_self, if_false]

theorem lengthRejection_eq (len : Nibble) :
    lengthRejection len = if len.toNat = 0 ∨ 5 ≤ len.toNat then some .badLength else none := by
  revert len; decide

theorem reservedRejection_eq {n : Nat} (r : BitVec n) (P : Prop) [Decidable P] (h : r.toNat ≠ 0 ↔ P) :
    reservedRejection r = if P then some .reservedNonzero else none := by
  have : (r ≠ 0) ↔ P := by rw [← h, not_iff_not, BitVec.toNat_eq]; simp
  simp only [reservedRejection, this]

/-- The checks of 30_encoding.md R51 on a word, in their order. -/
theorem rejection_decode (w : Word40) : rejection (decode w) =
    if opIllegal w then some .illegalOpcode else if lenIllegal w then some .badLength
    else if reservedSet w then some .reservedNonzero else none := by
  rcases decode_cases w with ⟨h, e⟩ | ⟨h, e⟩ | ⟨h, e⟩ | ⟨h, e⟩ | ⟨h, e⟩ | ⟨h, e⟩ | ⟨h, e⟩ | ⟨h, e⟩ 
  · simp [e, rejection, opIllegal, h]
  · rw [e, rejection]; simp [opIllegal, lenIllegal, reservedSet, h, reservedRejection]
  · rw [e, rejection, reservedRejection_eq _ (w.toNat % 2^36 ≠ 0) (by simp [BitVec.extractLsb'_toNat])]; simp [opIllegal, lenIllegal, reservedSet, h]
  · rw [e, rejection, reservedRejection_eq _ (w.toNat % 2^36 / 2^8 ≠ 0) (by simp [BitVec.extractLsb'_toNat, Nat.shiftRight_eq_div_pow]; omega)]; simp [opIllegal, lenIllegal, reservedSet, h]
  · rw [e, rejection, lengthRejection_eq]
    simp only [opIllegal, lenIllegal, reservedSet, h]
    by_cases hl : (lenField w).toNat = 0 ∨ 5 ≤ (lenField w).toNat <;> simp [hl, reservedRejection]
  · rw [e, rejection, lengthRejection_eq, reservedRejection_eq _ ((dataField w).toNat / 2 ^ (8 * (lenField w).toNat) ≠ 0) (by simp [xorwReserved, Nat.shiftRight_eq_div_pow])]
    simp only [opIllegal, lenIllegal, reservedSet, h]
    by_cases hl : (lenField w).toNat = 0 ∨ 5 ≤ (lenField w).toNat <;> simp [hl]
  · rcases h with h | h <;> simp [e, rejection, opIllegal, h]
  · simp [e, rejection, opIllegal]; omega

/-- The word of a command as a number, field by field (30_encoding.md R45). -/
theorem encode_toNat (i : Instr) : (encode i).toNat = match i with
    | .seed rsv imm32 => 1 * 2 ^ 36 + rsv.toNat * 2 ^ 32 + imm32.toNat
    | .next rsv => 2 * 2 ^ 36 + rsv.toNat
    | .xorb rsv d8 => 3 * 2 ^ 36 + rsv.toNat * 2 ^ 8 + d8.toNat
    | .nextw len rsv => 4 * 2 ^ 36 + len.toNat * 2 ^ 32 + rsv.toNat
    | .xorw len data => 5 * 2 ^ 36 + len.toNat * 2 ^ 32 + data.toNat
    | .illegalOp0 rest => rest.toNat
    | .illegalOp67 rest => 3 * 2 ^ 37 + rest.toNat
    | .illegalOp8F rest => 2 ^ 39 + rest.toNat := by
  cases i with
  | seed rsv imm => show (0x1#4 ++ rsv ++ imm).toNat = _; simp only [append_toNat, BitVec.toNat_ofNat]; omega
  | next rsv => show (0x2#4 ++ rsv).toNat = _; simp only [append_toNat, BitVec.toNat_ofNat]
  | xorb rsv d => show (0x3#4 ++ rsv ++ d).toNat = _; simp only [append_toNat, BitVec.toNat_ofNat]; omega
  | nextw len rsv => show (0x4#4 ++ len ++ rsv).toNat = _; simp only [append_toNat, BitVec.toNat_ofNat]; omega
  | xorw len d => show (0x5#4 ++ len ++ d).toNat = _; simp only [append_toNat, BitVec.toNat_ofNat]; omega
  | illegalOp0 r => show (0x0#4 ++ r).toNat = _; rw [append_toNat]; simp
  | illegalOp67 r => show (3#3 ++ r).toNat = _; simp only [append_toNat, BitVec.toNat_ofNat]
  | illegalOp8F r => show (1#1 ++ r).toNat = _; simp only [append_toNat, BitVec.toNat_ofNat]; omega

/-- A slice of a word as a number (00_scope.md R10). -/
theorem extractLsb'_toNat_div {n : Nat} (w : Word40) (lo : Nat) :
    (w.extractLsb' lo n).toNat = w.toNat / 2 ^ lo % 2 ^ n := by
  rw [BitVec.extractLsb'_toNat, Nat.shiftRight_eq_div_pow]

theorem lengthRejection_none {len : Nibble} : lengthRejection len = none ↔ 1 ≤ len.toNat ∧ len.toNat ≤ 4 := by
  revert len; decide

theorem reservedRejection_of_ne {w : Nat} {rsv : BitVec w} (h : rsv ≠ 0) :
    reservedRejection rsv = some .reservedNonzero := if_pos h

end Sys2Proof.Machine
end

