-- ==== Sys2Proof/Laws/State.lean ====
section
/-! SUPPORT. One lemma for each field under each update of an instance and of the State. -/

namespace Sys2Proof.Machine

@[simp] theorem CoreInst.respond_S (c : CoreInst) (st len : Nibble) (d : Data) : (c.respond st len d).S = c.S := rfl
@[simp] theorem CoreInst.respond_seeded (c : CoreInst) (st len : Nibble) (d : Data) :
    (c.respond st len d).seeded = c.seeded := rfl
@[simp] theorem CoreInst.respond_cmds (c : CoreInst) (st len : Nibble) (d : Data) :
    (c.respond st len d).cmds = c.cmds := rfl
@[simp] theorem CoreInst.respond_rsps (c : CoreInst) (st len : Nibble) (d : Data) :
    (c.respond st len d).rsps = c.rsps ++ [rspWord st len d] := rfl

@[simp] theorem CoreInst.seedWith_S (c : CoreInst) (v : Data) : (c.seedWith v).S = v := rfl
@[simp] theorem CoreInst.seedWith_seeded (c : CoreInst) (v : Data) : (c.seedWith v).seeded = true := rfl
@[simp] theorem CoreInst.seedWith_cmds (c : CoreInst) (v : Data) : (c.seedWith v).cmds = c.cmds := rfl
@[simp] theorem CoreInst.seedWith_rsps (c : CoreInst) (v : Data) : (c.seedWith v).rsps = c.rsps := rfl

@[simp] theorem CoreInst.draw_byte (c : CoreInst) : c.draw.1 = lowByte (lcg c.S) := rfl
@[simp] theorem CoreInst.draw_S (c : CoreInst) : c.draw.2.S = lcg c.S := rfl
@[simp] theorem CoreInst.draw_seeded (c : CoreInst) : c.draw.2.seeded = c.seeded := rfl
@[simp] theorem CoreInst.draw_cmds (c : CoreInst) : c.draw.2.cmds = c.cmds := rfl
@[simp] theorem CoreInst.draw_rsps (c : CoreInst) : c.draw.2.rsps = c.rsps := rfl

@[simp] theorem State.updInst_cur (s : State) (p : Nat) (f : CoreInst → CoreInst) : (s.updInst p f).cur = s.cur := rfl
@[simp] theorem State.updInst_sched (s : State) (p : Nat) (f : CoreInst → CoreInst) :
    (s.updInst p f).sched = s.sched := rfl
@[simp] theorem State.updInst_rspDepth (s : State) (p : Nat) (f : CoreInst → CoreInst) :
    (s.updInst p f).rspDepth = s.rspDepth := rfl
@[simp] theorem State.updInst_length (s : State) (p : Nat) (f : CoreInst → CoreInst) :
    (s.updInst p f).insts.length = s.insts.length := by simp [State.updInst]
@[simp] theorem State.updInst_same (s : State) (p : Nat) (f : CoreInst → CoreInst) :
    (s.updInst p f).insts[p]? = s.insts[p]?.map f := by simp [State.updInst]
theorem State.updInst_other (s : State) {p q : Nat} (f : CoreInst → CoreInst) (h : q ≠ p) :
    (s.updInst p f).insts[q]? = s.insts[q]? := by simp [State.updInst, h.symm]

/-- Two updates of one instance are one. -/
theorem State.updInst_updInst (s : State) (p : Nat) (f g : CoreInst → CoreInst) :
    (s.updInst p f).updInst p g = s.updInst p (g ∘ f) := by
  simp only [State.updInst]
  congr 1
  apply List.ext_getElem?
  intro q
  by_cases h : p = q <;> simp [h, Function.comp_def]

/-- An update matters only through its value on the instance that is there. -/
theorem State.updInst_congr {s : State} {p : Nat} {c : CoreInst} {f g : CoreInst → CoreInst}
    (hc : s.insts[p]? = some c) (h : f c = g c) : s.updInst p f = s.updInst p g := by
  simp only [State.updInst]
  congr 1
  apply List.ext_getElem?
  intro q
  by_cases hq : p = q
  · subst hq
    simp [hc, h]
  · simp [hq]

@[simp] theorem State.idle_insts (s : State) : s.idle.insts = s.insts := rfl
@[simp] theorem State.idle_cur (s : State) : s.idle.cur = s.cur := rfl
@[simp] theorem State.idle_rspDepth (s : State) : s.idle.rspDepth = s.rspDepth := rfl
@[simp] theorem State.idle_sched (s : State) : s.idle.sched = s.sched.tail := rfl

@[simp] theorem State.fetchFrom_cur (s : State) (p : Nat) : (s.fetchFrom p).cur = p := rfl
@[simp] theorem State.fetchFrom_sched (s : State) (p : Nat) : (s.fetchFrom p).sched = s.sched.tail := rfl
@[simp] theorem State.fetchFrom_rspDepth (s : State) (p : Nat) : (s.fetchFrom p).rspDepth = s.rspDepth := rfl
@[simp] theorem State.fetchFrom_length (s : State) (p : Nat) : (s.fetchFrom p).insts.length = s.insts.length := by
  simp [State.fetchFrom]
@[simp] theorem State.fetchFrom_same (s : State) (p : Nat) :
    (s.fetchFrom p).insts[p]? = s.insts[p]?.map fun c => { c with cmds := c.cmds.tail } := by
  simp [State.fetchFrom]
theorem State.fetchFrom_other (s : State) {p q : Nat} (h : q ≠ p) : (s.fetchFrom p).insts[q]? = s.insts[q]? := by
  simp [State.fetchFrom, State.updInst_other, h]

@[simp] theorem State.coreReset_length (s : State) (L : List Data) :
    (s.coreReset L).insts.length = s.insts.length := by simp [State.coreReset]
@[simp] theorem State.coreReset_cur (s : State) (L : List Data) : (s.coreReset L).cur = 0 := rfl
@[simp] theorem State.coreReset_sched (s : State) (L : List Data) : (s.coreReset L).sched = [] := rfl
@[simp] theorem State.coreReset_rspDepth (s : State) (L : List Data) : (s.coreReset L).rspDepth = s.rspDepth := rfl

end Sys2Proof.Machine
end

