-- ==== Sys2Proof/Laws/Ops.lean ====
section
/-! SUPPORT. What each shared operation does, said once. -/

namespace Sys2Proof.Machine

/-- The update function in the order the spec writes it (40_generator.md R56). -/
theorem lcg_eq (s : Data) : lcg s = Config.A * s + Config.C := by rw [lcg, BitVec.add_comm]

/-- All that draws do: the bytes, and `S` moved on. -/
theorem CoreInst.draws_eq (n : Nat) (c : CoreInst) :
    c.draws n = ((List.range n).map fun j => lowByte (lcg^[j + 1] c.S), { c with S := lcg^[n] c.S }) := by
  induction n generalizing c with
  | zero => simp [CoreInst.draws]
  | succ n ih =>
    simp only [CoreInst.draws, CoreInst.draw, ih]
    simp [List.range_succ_eq_map, Function.comp_def]

/-- All that a command can do to its instance: take its fault, or have its effect. -/
theorem CoreInst.attempt_cases (c : CoreInst) (fault? : Option FaultCode) (effect : CoreInst → CoreInst) :
    (∃ f, fault? = some f ∧ c.attempt fault? effect = c.takeFault f) ∨
    (fault? = none ∧ c.attempt fault? effect = effect c) := by
  cases fault? with
  | none => exact .inr ⟨rfl, rfl⟩
  | some f => exact .inl ⟨f, rfl, rfl⟩

/-- A command changes the current instance, if the State has one. -/
theorem State.onCur_eq_next {s t : State} {f : CoreInst → CoreInst} :
    s.onCur f = .next t ↔ s.cur < s.insts.length ∧ t = s.updInst s.cur f := by
  unfold State.onCur
  split <;> simp_all [eq_comm]

/-- With a current instance a command always answers a next State. -/
theorem State.onCur_of_lt {s : State} (h : s.cur < s.insts.length) (f : CoreInst → CoreInst) :
    s.onCur f = .next (s.updInst s.cur f) := State.onCur_eq_next.mpr ⟨h, rfl⟩

theorem State.cur_lt {s : State} {c : CoreInst} (h : s.insts[s.cur]? = some c) : s.cur < s.insts.length :=
  (List.getElem?_eq_some_iff.mp h).1

end Sys2Proof.Machine
end

