-- ==== Sys2Proof/Laws/Exec.lean ====
section
/-! SUPPORT. Every command is one update of the current instance, and what that update is. -/

namespace Sys2Proof.Machine

/-- What a command does to its instance. -/
def CoreInst.after (i : Instr) (c : CoreInst) : CoreInst :=
  match i with
  | .seed rsv imm32 => c.seed rsv imm32
  | .next rsv => c.next rsv
  | .xorb rsv d8 => c.xorb rsv d8
  | .nextw len rsv => c.nextw len rsv
  | .xorw len data => c.xorw len data
  | .illegalOp0 _ => c.takeFault .illegalOpcode
  | .illegalOp67 _ => c.takeFault .illegalOpcode
  | .illegalOp8F _ => c.takeFault .illegalOpcode

/-- Executing a command is its update of the current instance. -/
theorem exec_eq_onCur (i : Instr) (s : State) : exec i s = s.onCur (CoreInst.after i) := by
  cases i <;> rfl

theorem exec_eq_next {i : Instr} {s t : State} :
    exec i s = .next t ↔ s.cur < s.insts.length ∧ t = s.updInst s.cur (CoreInst.after i) := by
  rw [exec_eq_onCur, State.onCur_eq_next]

theorem exec_of_lt {s : State} (i : Instr) (h : s.cur < s.insts.length) :
    exec i s = .next (s.updInst s.cur (CoreInst.after i)) := exec_eq_next.mpr ⟨h, rfl⟩

/-- The bytes of `n` draws from a state (40_generator.md R60). -/
def keyBytes (S : Data) (n : Nat) : List Byte := (List.range n).map fun j => lowByte (lcg^[j + 1] S)

@[simp] theorem keyBytes_length (S : Data) (n : Nat) : (keyBytes S n).length = n := by simp [keyBytes]

/-- What a legal draw command of a seeded instance does, `ds` being the data bytes it carries. -/
def CoreInst.drawn (len : Nibble) (ds : List Byte) (c : CoreInst) : CoreInst :=
  CoreInst.respond { c with S := lcg^[len.toNat] c.S } 0 len (packLanes (xorBytes ds (keyBytes c.S len.toNat)))

/-- No `SEED`. -/
def IsDraw (i : Instr) : Prop := ∀ rsv imm, i ≠ .seed rsv imm

/-- What a legal draw command carries, with the count it names. -/
theorem CoreInst.drawn_of_legal {i : Instr} (hi : IsDraw i) (hr : rejection i = none) :
    ∃ (len : Nibble) (ds : List Byte), 1 ≤ len.toNat ∧ len.toNat ≤ 4 ∧ ds.length = len.toNat ∧
      ∀ c : CoreInst, c.after i = c.attempt (drawFault i c.seeded) (CoreInst.drawn len ds) := by
  cases i with
  | seed rsv imm => exact absurd rfl (hi rsv imm)
  | next rsv => exact ⟨1, [0], by decide, by decide, rfl, fun c => by
      simp only [CoreInst.after, CoreInst.next]
      congr 1
      funext c
      simp [CoreInst.drawn, xorBytes, packLanes, keyBytes, statusOk, CoreInst.draw]⟩
  | xorb rsv d8 => exact ⟨1, [d8], by decide, by decide, rfl, fun c => by
      simp only [CoreInst.after, CoreInst.xorb]
      congr 1
      funext c
      simp [CoreInst.drawn, xorBytes, packLanes, keyBytes, statusOk, CoreInst.draw]⟩
  | nextw len rsv =>
    have hl : 1 ≤ len.toNat ∧ len.toNat ≤ 4 := by
      rw [← lengthRejection_none]
      simp only [rejection, Option.or_eq_none_iff] at hr
      exact hr.1
    refine ⟨len, List.replicate len.toNat 0, hl.1, hl.2, by simp, fun c => ?_⟩
    simp only [CoreInst.after, CoreInst.nextw, CoreInst.draws_eq, statusOk]
    congr 1
    funext c
    have : xorBytes (List.replicate len.toNat 0) (keyBytes c.S len.toNat) = keyBytes c.S len.toNat := by
      rw [xorBytes]
      apply List.ext_getElem <;> simp
    rw [CoreInst.drawn, this]
    rfl
  | xorw len data =>
    have hl : 1 ≤ len.toNat ∧ len.toNat ≤ 4 := by
      rw [← lengthRejection_none]
      simp only [rejection, Option.or_eq_none_iff] at hr
      exact hr.1
    refine ⟨len, lanes len.toNat data, hl.1, hl.2, by simp [lanes], fun c => ?_⟩
    simp only [CoreInst.after, CoreInst.xorw, CoreInst.draws_eq, statusOk]
    rfl
  | illegalOp0 _ => simp [rejection] at hr
  | illegalOp67 _ => simp [rejection] at hr
  | illegalOp8F _ => simp [rejection] at hr

/-- An illegal encoding is answered with its fault. -/
theorem CoreInst.after_rejected {i : Instr} {f : FaultCode} (hr : rejection i = some f) (c : CoreInst) :
    c.after i = c.takeFault f := by
  cases i
  case seed => rw [CoreInst.after, CoreInst.seed, seedFault, hr]; rfl
  case next => rw [CoreInst.after, CoreInst.next, drawFault, hr]; rfl
  case xorb => rw [CoreInst.after, CoreInst.xorb, drawFault, hr]; rfl
  case nextw => rw [CoreInst.after, CoreInst.nextw, drawFault, hr]; rfl
  case xorw => rw [CoreInst.after, CoreInst.xorw, drawFault, hr]; rfl
  case illegalOp0 => cases hr; rfl
  case illegalOp67 => cases hr; rfl
  case illegalOp8F => cases hr; rfl

/-- All that a command can do: its rejection, or `UNSEEDED`; or, legal, what `SEED` does; or, legal and seeded, what draws do. -/
theorem CoreInst.after_cases (i : Instr) (c : CoreInst) :
    (∃ f, rejection i = some f ∧ c.after i = c.takeFault f) ∨
    (rejection i = none ∧ IsDraw i ∧ c.seeded = false ∧ c.after i = c.takeFault .unseeded) ∨
    (∃ imm, i = .seed 0 imm ∧ c.after i = (c.seedWith imm).respond 0 0 0) ∨
    (∃ (len : Nibble) (ds : List Byte), rejection i = none ∧ IsDraw i ∧ c.seeded = true ∧
      1 ≤ len.toNat ∧ len.toNat ≤ 4 ∧ ds.length = len.toNat ∧ c.after i = c.drawn len ds) := by
  cases hr : rejection i with
  | some f => exact .inl ⟨f, rfl, CoreInst.after_rejected hr c⟩
  | none =>
    by_cases hi : IsDraw i
    · obtain ⟨len, ds, h1, h2, h3, h⟩ := CoreInst.drawn_of_legal hi hr
      cases hs : c.seeded with
      | false => exact .inr (.inl ⟨rfl, hi, rfl, by rw [h, drawFault, hr, hs]; rfl⟩)
      | true => exact .inr (.inr (.inr ⟨len, ds, rfl, hi, rfl, h1, h2, h3, by rw [h, drawFault, hr, hs]; rfl⟩))
    · simp only [IsDraw, ne_eq, not_forall, not_not] at hi
      obtain ⟨rsv, imm, rfl⟩ := hi
      have : rsv = 0 := by
        by_contra h
        rw [rejection, reservedRejection_of_ne h] at hr
        cases hr
      subst this
      exact .inr (.inr (.inl ⟨imm, rfl, rfl⟩))

end Sys2Proof.Machine
end

