-- ==== Sys2Proof/Laws/PerInstr.lean ====
section
/-! SUPPORT. Statements made for every command, one lemma a constructor. -/

namespace Sys2Proof.Laws

/-- The opcodes that select a row of the opcode table (30_encoding.md R48). -/
def opcodesOf : Instr → List Nat
  | .seed _ _ => [1]
  | .next _ => [2]
  | .xorb _ _ => [3]
  | .nextw _ _ => [4]
  | .xorw _ _ => [5]
  | .illegalOp0 _ => [0]
  | .illegalOp67 _ => [6, 7]
  | .illegalOp8F _ => [8, 9, 10, 11, 12, 13, 14, 15]

/-- The word of a command carries an opcode of its row. -/
def EncodedOpcode.Statement (i : Instr) : Prop := (opField (encode i)).toNat ∈ opcodesOf i

open Machine

theorem EncodedOpcode.seed (rsv : Nibble) (imm32 : Data) : EncodedOpcode.Statement (.seed rsv imm32) := by
  simp only [EncodedOpcode.Statement, opcodesOf, opField_toNat, encode_toNat, List.mem_cons, List.not_mem_nil]; omega

theorem EncodedOpcode.next (rsv : BitVec 36) : EncodedOpcode.Statement (.next rsv) := by
  simp only [EncodedOpcode.Statement, opcodesOf, opField_toNat, encode_toNat, List.mem_cons, List.not_mem_nil]; omega

theorem EncodedOpcode.xorb (rsv : BitVec 28) (d8 : Byte) : EncodedOpcode.Statement (.xorb rsv d8) := by
  simp only [EncodedOpcode.Statement, opcodesOf, opField_toNat, encode_toNat, List.mem_cons, List.not_mem_nil]; omega

theorem EncodedOpcode.nextw (len : Nibble) (rsv : Data) : EncodedOpcode.Statement (.nextw len rsv) := by
  simp only [EncodedOpcode.Statement, opcodesOf, opField_toNat, encode_toNat, List.mem_cons, List.not_mem_nil]; omega

theorem EncodedOpcode.xorw (len : Nibble) (data : Data) : EncodedOpcode.Statement (.xorw len data) := by
  simp only [EncodedOpcode.Statement, opcodesOf, opField_toNat, encode_toNat, List.mem_cons, List.not_mem_nil]; omega

theorem EncodedOpcode.illegalOp0 (rest : BitVec 36) : EncodedOpcode.Statement (.illegalOp0 rest) := by
  simp only [EncodedOpcode.Statement, opcodesOf, opField_toNat, encode_toNat, List.mem_cons, List.not_mem_nil]; omega

theorem EncodedOpcode.illegalOp67 (rest : BitVec 37) : EncodedOpcode.Statement (.illegalOp67 rest) := by
  simp only [EncodedOpcode.Statement, opcodesOf, opField_toNat, encode_toNat, List.mem_cons, List.not_mem_nil]; omega

theorem EncodedOpcode.illegalOp8F (rest : BitVec 39) : EncodedOpcode.Statement (.illegalOp8F rest) := by
  simp only [EncodedOpcode.Statement, opcodesOf, opField_toNat, encode_toNat, List.mem_cons, List.not_mem_nil]; omega

end Sys2Proof.Laws
end

