-- ==== Sys2Proof/Laws/Step.lean ====
section
/-! SUPPORT. What a step and a transaction can do, said once. -/

namespace Sys2Proof.Machine

theorem State.ready_iff {s : State} {p : Nat} :
    s.ready p = true ↔ ∃ c, s.insts[p]? = some c ∧ c.cmds ≠ [] ∧ c.hasRoom s.rspDepth = true := by
  unfold State.ready
  cases h : s.insts[p]? with
  | none => simp
  | some c => simp [CoreInst.ready]

theorem State.ready_lt {s : State} {p : Nat} (h : s.ready p = true) : p < s.insts.length := by
  obtain ⟨c, hc, -⟩ := State.ready_iff.mp h
  exact (List.getElem?_eq_some_iff.mp hc).1

/-- The instance that the next step serves can move. -/
theorem State.nextPort_ready {s : State} {p : Nat} (h : s.nextPort = some p) : s.ready p = true := by
  unfold State.nextPort at h
  split at h
  · split at h <;> simp_all
  · exact List.find?_some h

/-- All that the fetch can answer. -/
theorem State.fetch_eq_some {s s' : State} {w : Word40} :
    s.fetch = some (w, s') ↔ ∃ p c, s.nextPort = some p ∧ s.insts[p]? = some c ∧ c.cmds.head? = some w ∧
      s' = s.fetchFrom p := by
  unfold State.fetch
  cases hp : s.nextPort with
  | none => simp
  | some p =>
    cases hc : s.insts[p]? with
    | none => simp [hc]
    | some c => simp [hc, eq_comm]

/-- A step in which no instance can move only passes the turn. -/
theorem step_idle {s : State} (h : s.nextPort = none) : step s = .next s.idle := by
  simp [step, State.fetch, h]

/-- A step takes the oldest word of the served instance and executes what it decodes to. -/
theorem step_serve {s : State} {p : Nat} {c : CoreInst} {w : Word40} (hp : s.nextPort = some p)
    (hc : s.insts[p]? = some c) (hw : c.cmds.head? = some w) : step s = exec (decode w) (s.fetchFrom p) := by
  have : s.fetch = some (w, s.fetchFrom p) := State.fetch_eq_some.mpr ⟨p, c, hp, hc, hw, rfl⟩
  simp [step, this]

/-- The State after a step that executes `w` on instance `p`. -/
def State.served (s : State) (p : Nat) (w : Word40) : State :=
  { s.updInst p (fun c => CoreInst.after (decode w) { c with cmds := c.cmds.tail }) with
    cur := p, sched := s.sched.tail }

theorem State.fetchFrom_exec {s : State} {p : Nat} (w : Word40) (hp : p < s.insts.length) :
    exec (decode w) (s.fetchFrom p) = .next (s.served p w) := by
  rw [exec_of_lt _ (by simpa using hp)]
  congr 1
  have : (s.fetchFrom p).updInst p (CoreInst.after (decode w)) =
      { (s.updInst p fun c => { c with cmds := c.cmds.tail }).updInst p (CoreInst.after (decode w)) with
        cur := p, sched := s.sched.tail } := rfl
  rw [State.fetchFrom_cur, this, State.updInst_updInst]
  rfl

/-- All that a step can do. -/
theorem step_cases (s : State) :
    (s.nextPort = none ∧ step s = .next s.idle) ∨
    (∃ p c w, s.nextPort = some p ∧ s.insts[p]? = some c ∧ c.cmds.head? = some w ∧ step s = .next (s.served p w)) := by
  cases hp : s.nextPort with
  | none => exact .inl ⟨rfl, step_idle hp⟩
  | some p =>
    obtain ⟨c, hc, hne, -⟩ := State.ready_iff.mp (State.nextPort_ready hp)
    cases hw : c.cmds.head? with
    | none => simp_all
    | some w =>
      exact .inr ⟨p, c, w, rfl, hc, hw,
        by rw [step_serve hp hc hw, State.fetchFrom_exec w (State.ready_lt (State.nextPort_ready hp))]⟩

/-- The machine never stops. -/
theorem step_total (s : State) : ∃ t, step s = .next t := by
  rcases step_cases s with ⟨-, h⟩ | ⟨_, _, _, -, -, -, h⟩ <;> exact ⟨_, h⟩

/-- The response that a command adds, and that it leaves the command channel alone. -/
theorem CoreInst.after_responds (i : Instr) (c : CoreInst) :
    ∃ r, (c.after i).rsps = c.rsps ++ [r] ∧ (c.after i).cmds = c.cmds := by
  rcases CoreInst.after_cases i c with ⟨f, -, h⟩ | ⟨-, -, -, h⟩ | ⟨imm, -, h⟩ | ⟨len, ds, -, -, -, -, -, -, h⟩ <;>
    rw [h] <;> exact ⟨_, rfl, rfl⟩

/-- What a command computes depends on `S` and `SEEDED` alone: the channels only pass through. -/
theorem CoreInst.after_channels (i : Instr) (c : CoreInst) (cmds rsps : List Word40) :
    ∃ r, (c.after i).rsps = c.rsps ++ [r] ∧
      CoreInst.after i { c with cmds := cmds, rsps := rsps } =
        { S := (c.after i).S, seeded := (c.after i).seeded, cmds := cmds, rsps := rsps ++ [r] } := by
  cases hr : rejection i with
  | some f => rw [CoreInst.after_rejected hr, CoreInst.after_rejected hr]; exact ⟨_, rfl, rfl⟩
  | none =>
    by_cases hi : IsDraw i
    · obtain ⟨len, ds, -, -, -, h⟩ := CoreInst.drawn_of_legal hi hr
      rw [h, h]
      simp only [drawFault, hr]
      cases hs : c.seeded
      · exact ⟨_, rfl, by simp [seededRejection, CoreInst.attempt, CoreInst.takeFault, CoreInst.respond, hs]⟩
      · exact ⟨_, rfl, by simp [seededRejection, CoreInst.attempt, CoreInst.drawn, CoreInst.respond, hs]⟩
    · simp only [IsDraw, ne_eq, not_forall, not_not] at hi
      obtain ⟨rsv, imm, rfl⟩ := hi
      simp only [CoreInst.after, CoreInst.seed, seedFault, hr]
      exact ⟨_, rfl, rfl⟩

/-- A whole transaction on an instance whose channels are empty. -/
theorem State.transact_eq {s : State} {p : Nat} {c : CoreInst} (w : Word40) (hd : s.rspDepth ≠ some 0)
    (hc : s.insts[p]? = some c) (hcmds : c.cmds = []) (hrsps : c.rsps = []) :
    ∃ r, (c.after (decode w)).rsps = [r] ∧
      s.transact p w = some (r, { s.updInst p (fun _ =>
        { S := (c.after (decode w)).S, seeded := (c.after (decode w)).seeded, cmds := [], rsps := [] }) with
        cur := p }) := by
  obtain ⟨S, seeded, cmds, rsps⟩ := c
  simp only at hcmds hrsps
  subst hcmds hrsps
  obtain ⟨r, hr, -⟩ := CoreInst.after_responds (decode w) ⟨S, seeded, [], []⟩
  obtain ⟨r', hr', ha⟩ := CoreInst.after_channels (decode w) ⟨S, seeded, [], []⟩ [] []
  refine ⟨r, by simpa using hr, ?_⟩
  have hrr : r' = r := by rw [hr] at hr'; simpa using hr'.symm
  subst hrr
  let s₁ : State := { s.present p w with sched := p :: (s.present p w).sched }
  have hc₁ : s₁.insts[p]? = some ⟨S, seeded, [w], []⟩ := by
    show (s.updInst p _).insts[p]? = _
    simp [hc]
  have hroom : CoreInst.hasRoom s.rspDepth ⟨S, seeded, [w], []⟩ = true := by
    unfold CoreInst.hasRoom
    split
    · rfl
    · rename_i d hd'
      have : d ≠ 0 := fun h => hd (by rw [hd', h])
      simp; omega
  have hp : s₁.nextPort = some p := by
    have : s₁.ready p = true := State.ready_iff.mpr ⟨_, hc₁, by simp, hroom⟩
    simp [State.nextPort, s₁, this]
  have hlt : p < s₁.insts.length := (List.getElem?_eq_some_iff.mp hc₁).1
  have hstep : step s₁ = .next (s₁.served p w) := by rw [step_serve hp hc₁ rfl, State.fetchFrom_exec w hlt]
  have hcur : (s₁.served p w).insts[p]? = some (CoreInst.after (decode w) ⟨S, seeded, [], []⟩) := by
    show (s₁.updInst p _).insts[p]? = _
    simp [hc₁]
  have htake : ((s₁.served p w).take p).1 = some r' := by
    simp only [State.take, hcur, Option.bind_some, hr]
    rfl
  unfold State.transact
  show (match step s₁ with | .next s₂ => (s₂.take p).1.map fun r => (r, (s₂.take p).2) | _ => none) = _
  rw [hstep]
  simp only [htake, Option.map_some]
  congr 2
  show ({ (((s.updInst p _).updInst p _).updInst p _) with cur := p } : State) = _
  rw [State.updInst_updInst, State.updInst_updInst, State.updInst_congr hc (g := fun _ => _)]
  simp only [Function.comp_apply, List.nil_append, List.tail_cons]
  simp only [List.nil_append] at ha hr
  rw [ha]
  rfl

end Sys2Proof.Machine
end

