-- ==== Sys2Proof/Tests/Slice0.lean ====
section
/-! SUPPORT. Tests on small states, their expected values taken from the spec's bit patterns and test vectors, and for each
statement with hypotheses a witness that meets them together. -/

namespace Sys2Proof.Tests

open Sys2Proof.Machine

/-- A core with one instance, nothing in its channels. -/
def one (S : Data) (seeded : Bool) : State :=
  { State.reset with insts := [{ S := S, seeded := seeded, cmds := [], rsps := [] }] }

/-- A core with two instances that have commands waiting, and responses of which at most `d` fit. -/
def two (d : Option Nat) (w v : List Word40) (r : List Word40) : State :=
  { insts := [⟨1#32, true, w, r⟩, ⟨2#32, true, v, []⟩], cur := 0, sched := [], rspDepth := d }

/-- The State a step or a command answers, if it answers one. -/
def stateOf : Host.Outcome State Fault Refusal → Option State
  | .next t => some t
  | _ => none

/-- A command on one instance: `S`, `SEEDED` and the responses after it. -/
def run1 (i : Instr) (S : Data) (seeded : Bool) : Option (List (Data × Bool × List Word40)) :=
  (stateOf (exec i (one S seeded))).map fun t => t.insts.map fun c => (c.S, c.seeded, c.rsps)

/-! ### Decoding: words written out from the bit patterns of 30_encoding.md R45, and from 95_test_vectors.md -/

theorem test_decode_seed : decode 0b0001000000000000000000000000000000101010#40 = .seed 0 42#32 := by decide
theorem test_decode_next : decode 0b0010000000000000000000000000000000000000#40 = .next 0 := by decide
theorem test_decode_xorb : decode 0b0011000000000000000000000000000001001000#40 = .xorb 0 0x48#8 := by decide
theorem test_decode_nextw : decode 0b0100010000000000000000000000000000000000#40 = .nextw 4 0 := by decide
theorem test_decode_xorw : decode 0b0101001100000000101010100000000011111111#40 = .xorw 3 0x00AA00FF#32 := by decide
theorem test_decode_illegalOp0 : decode 0x0000000000#40 = .illegalOp0 0 := by decide
theorem test_decode_illegalOp67 : decode 0b0110000000000000000000000000000000000000#40 = .illegalOp67 0 ∧
    decode 0x7123456789#40 = .illegalOp67 0x1123456789#37 := by decide
theorem test_decode_illegalOp8F : decode 0x8000000000#40 = .illegalOp8F 0 ∧
    decode 0xFFFFFFFFFF#40 = .illegalOp8F 0x7FFFFFFFFF#39 := by decide
/-- The reserved bits of a row land in the row's `rsv` field (95_test_vectors.md 2.5). -/
theorem test_decode_reserved : decode 0x1100000000#40 = .seed 1 0 ∧ decode 0x2000000001#40 = .next 1 ∧
    decode 0x3000000100#40 = .xorb 1 0 ∧ decode 0x4400000001#40 = .nextw 4 1 := by decide
theorem test_encode_words : encode (.seed 0 0xDEADBEEF#32) = 0x10DEADBEEF#40 ∧ encode (.next 0) = 0x2000000000#40 ∧
    encode (.xorb 0 0xFF#8) = 0x30000000FF#40 ∧ encode (.nextw 3 0) = 0x4300000000#40 ∧
    encode (.xorw 2 0x00009E24#32) = 0x5200009E24#40 := by decide
theorem test_decodeTableWord : decodeTableWord 40 0x2000000000 = some (.next 0) ∧
    decodeTableWord 48 0x2000000000 = none := by decide

/-! ### Well-formedness: an ill-formed term for each check -/

theorem test_wf_seed_reserved : (Instr.seed 1 0).wf = false := by decide
theorem test_wf_next_reserved : (Instr.next 1).wf = false := by decide
theorem test_wf_xorb_reserved : (Instr.xorb 1 0).wf = false := by decide
theorem test_wf_nextw_length : (Instr.nextw 0 0).wf = false ∧ (Instr.nextw 5 0).wf = false := by decide
theorem test_wf_nextw_reserved : (Instr.nextw 4 1).wf = false := by decide
theorem test_wf_xorw_length : (Instr.xorw 0 0).wf = false ∧ (Instr.xorw 5 0).wf = false := by decide
theorem test_wf_xorw_lanes : (Instr.xorw 1 0x100#32).wf = false ∧ (Instr.xorw 3 0x01000000#32).wf = false := by decide
theorem test_wf_illegal : (Instr.illegalOp0 0).wf = false ∧ (Instr.illegalOp67 0).wf = false ∧
    (Instr.illegalOp8F 0).wf = false := by decide
theorem test_wf_legal : (Instr.seed 0 0xFFFFFFFF#32).wf = true ∧ (Instr.next 0).wf = true ∧ (Instr.xorb 0 0xFF#8).wf = true ∧
    (Instr.nextw 1 0).wf = true ∧ (Instr.nextw 4 0).wf = true ∧ (Instr.xorw 1 0xFF#32).wf = true ∧
    (Instr.xorw 4 0xFFFFFFFF#32).wf = true := by decide

/-! ### Commands (95_test_vectors.md 2.2, 2.3, 2.5) -/

theorem test_seed : run1 (.seed 0 0xFFFFFFFF#32) 7 false = some [(0xFFFFFFFF#32, true, [0x0000000000#40])] := by decide
theorem test_next_wraps : run1 (.next 0) 0xFFFFFFFF#32 true = some [(0x3C558D52#32, true, [0x0100000052#40])] := by decide
theorem test_next_reaches_zero : run1 (.next 0) 0x25D60FE5#32 true = some [(0#32, true, [0x0100000000#40])] := by decide
theorem test_nextw_two : run1 (.nextw 2 0) 42 true = some [(0x168F5CEC#32, true, [0x020000EC81#40])] := by decide
theorem test_nextw_four : run1 (.nextw 4 0) 42 true = some [(0x38F950FE#32, true, [0x04FE5BEC81#40])] := by decide
theorem test_xorb_complement : run1 (.xorb 0 0xFF#8) 42 true = some [(0x4099B181#32, true, [0x010000007E#40])] := by decide
theorem test_xorw_three : run1 (.xorw 3 0x00AA00FF#32) 42 true = some [(0x93C8B35B#32, true, [0x0300F1EC7E#40])] := by
  decide
theorem test_xorw_four : run1 (.xorw 4 0xFFFFFFFF#32) 0x168F5CEC#32 true =
    some [(0x0691E8E0#32, true, [0x041FBA01A4#40])] := by decide
theorem test_illegal_rows : run1 (decode 0x0000000000#40) 42 true = some [(42#32, true, [0x1000000000#40])] ∧
    run1 (decode 0x9000000041#40) 42 true = some [(42#32, true, [0x1000000000#40])] ∧
    run1 (decode 0x7123456789#40) 42 false = some [(42#32, false, [0x1000000000#40])] :=
  ⟨by decide, by decide, by decide⟩
/-- Length is checked before reserved bits (95_test_vectors.md 2.5). -/
theorem test_priority : run1 (decode 0x4000000001#40) 42 false = some [(42#32, false, [0x2000000000#40])] ∧
    run1 (decode 0x5200010000#40) 0x168F5CEC#32 true = some [(0x168F5CEC#32, true, [0x3000000000#40])] := by decide
theorem test_unseeded : run1 (decode 0x5200000201#40) 9 false = some [(9#32, false, [0x4000000000#40])] := by decide

/-! ### A step from reset, and the host's side -/

theorem test_step_of_placed_word : (stateOf (step (State.reset.withFetchWord 40 0x100000002A))).map (·.insts) =
    some [⟨42#32, true, [], [0x0000000000#40]⟩] := by decide
theorem test_step_with_nothing_to_do : stateOf (step State.reset) = some State.reset := by decide
theorem test_reset_event : ((one 5 true).present 0 0x2000000000#40).coreReset [] = one 5 false := by decide
/-- 95_test_vectors.md P6, first rows: two instances, interleaved. -/
theorem test_two_instances : ((State.resetN 2).transactAll
    [(0, 0x1000000001#40), (1, 0x1000000002#40), (0, 0x3000000048#40)]).map (·.1) =
    some [0x0000000000#40, 0x0000000000#40, 0x0100000024#40] := by decide
theorem test_block_functions : KS 42 8 = [0x81, 0xEC, 0x5B, 0xFE, 0x45, 0xE0, 0xBF, 0x12] ∧
    encrypt 1 [0x48, 0x45, 0x4C, 0x4C, 0x4F] = [0x24, 0x9E, 0x32, 0x89, 0x2F] := by decide
theorem test_reference : refStep 0x168F5CEC true 0x54FFFFFFFF = (0x0691E8E0, true, 0x041FBA01A4) ∧
    refStep 5 false 0x5301000000 = (5, false, 0x3000000000) := by decide

/-! ### The assembler -/

theorem test_assembleText : assembleText "SEED -42 ; a seed\n\nXORW 3, 0xFF, 0x00, 0xAA\nKEYSTREAM 1, 1".toList =
    some [0x10FFFFFFD6#40, 0x5300AA00FF#40, 0x1000000001#40, 0x2000000000#40] := by decide
theorem test_assembleText_macro : assembleText "ENCRYPT 99, [65]\nDECRYPT 99, []".toList =
    some [0x1000000063#40, 0x3000000041#40, 0x1000000063#40] := by decide
theorem test_assembler_refuses : assemble (.xorb 256) = none ∧ assemble (.nextw 5) = none ∧
    assemble (.xorw 2 [1]) = none ∧ assemble (.raw (2 ^ 40)) = none := by decide

/-! ### Witnesses of the statements' hypotheses -/

theorem witness_PackedBytesAreReadBackInLaneOrder : ([1, 2, 3, 255] : List Byte).length ≤ 4 ∧
    packLanes [1, 2, 3, 255] = 0xFF030201#32 := by decide
theorem witness_IllegalOpcodeFaultExactly : State.reset.wf ∧ opIllegal 0x0000000000#40 ∧ opIllegal 0x6000000000#40 ∧
    opIllegal 0xFFFFFFFFFF#40 ∧ ¬opIllegal 0x1000000000#40 ∧ ¬opIllegal 0x5000000000#40 := by decide
theorem witness_BadLengthFaultExactly : State.reset.wf ∧ lenIllegal 0x4000000000#40 ∧ lenIllegal 0x4500000000#40 ∧
    lenIllegal 0x5F00000001#40 ∧ ¬lenIllegal 0x4100000000#40 ∧ ¬lenIllegal 0x5400000000#40 := by decide
theorem witness_ReservedNonzeroFaultExactly : State.reset.wf ∧ reservedSet 0x1100000000#40 ∧ reservedSet 0x2000000001#40 ∧
    reservedSet 0x3000000100#40 ∧ (¬lenIllegal 0x4400000001#40 ∧ reservedSet 0x4400000001#40) ∧
    (¬lenIllegal 0x5301000000#40 ∧ reservedSet 0x5301000000#40) ∧ ¬reservedSet 0x54FFFFFFFF#40 :=
  ⟨by decide, by decide, by decide, by decide, ⟨by decide, by decide⟩, ⟨by decide, by decide⟩, by decide⟩
theorem witness_UnseededFaultExactly : (one 1 false).insts[(one 1 false).cur]? = some ⟨1#32, false, [], []⟩ ∧
    (decode 0x2000000000#40).wf = true ∧ opField 0x2000000000#40 ≠ 1 ∧ opField 0x1000000000#40 = 1 := by decide
theorem witness_UnseededFaultExactly_run : (one 1 true).wf ∧
    (((one 1 true).coreReset [9]).transactAll (onPort 0 [0x2000000000#40, 0x1000000005#40])).map
      (fun x => (x.1, x.2.insts)) = some ([0x4000000000#40, 0#40], [⟨5#32, true, [], []⟩]) ∧
    encode (.seed 0 5#32) ∈ [0x2000000000#40, 0x1000000005#40] := by decide
theorem witness_FirstFailingCheckDecidesTheFault : (¬opIllegal 0x4000000001#40 ∧ lenIllegal 0x4000000001#40) ∧
    (¬opIllegal 0x3000000100#40 ∧ ¬lenIllegal 0x3000000100#40 ∧ reservedSet 0x3000000100#40) ∧
    (¬opIllegal 0x5400000000#40 ∧ ¬lenIllegal 0x5400000000#40 ∧ ¬reservedSet 0x5400000000#40 ∧
      opField 0x5400000000#40 ≠ 1) ∧
    (¬opIllegal 0x10FFFFFFFF#40 ∧ ¬lenIllegal 0x10FFFFFFFF#40 ∧ ¬reservedSet 0x10FFFFFFFF#40 ∧
      opField 0x10FFFFFFFF#40 = 1) :=
  ⟨⟨by decide, by decide⟩, ⟨by decide, by decide, by decide⟩, ⟨by decide, by decide, by decide, by decide⟩,
    ⟨by decide, by decide, by decide, by decide⟩⟩
theorem witness_FaultingCommandChangesNothing : (two none [0x0000000000#40] [] []).nextPort = some 0 ∧
    (stateOf (step (two none [0x0000000000#40] [] []))).map (·.insts) =
      some [⟨1#32, true, [], [0x1000000000#40]⟩, ⟨2#32, true, [], []⟩] ∧ rspStatus 0x1000000000#40 ≠ 0 := by decide
theorem witness_FaultIsNotSticky : (one 42 true).wf ∧ (one 42 true).drained 0 ∧
    (one 42 true).transact 0 0x0000000000#40 = some (0x1000000000#40, one 42 true) ∧ rspStatus 0x1000000000#40 ≠ 0 :=
  ⟨by decide, ⟨_, rfl, rfl, rfl⟩, by decide, by decide⟩
/-- The words that the decoding clauses of the five command statements are about. -/
theorem witness_opcodes : opField 0x1FFFFFFFFF#40 = 1 ∧ opField 0x2000000000#40 = 2 ∧ opField 0x3000000041#40 = 3 ∧
    opField 0x4F00000000#40 = 4 ∧ opField 0x5000000000#40 = 5 := by decide
theorem witness_SeedLoadsTheImmediate : State.reset.wf ∧ (0 : Nibble) = 0 ∧ (15 : Nibble) ≠ 0 := by decide
theorem witness_NextDrawsOneByte : (one 42 true).insts[(one 42 true).cur]? = some ⟨42#32, true, [], []⟩ ∧
    (one 42 false).insts[(one 42 false).cur]? = some ⟨42#32, false, [], []⟩ ∧ (1 : BitVec 36) ≠ 0 := by decide
theorem witness_XorbXorsOneByte : (one 42 true).insts[(one 42 true).cur]? = some ⟨42#32, true, [], []⟩ ∧
    (one 42 false).insts[(one 42 false).cur]? = some ⟨42#32, false, [], []⟩ ∧ (1 : BitVec 28) ≠ 0 := by decide
theorem witness_NextwDrawsItsLanes : (one 42 true).insts[(one 42 true).cur]? = some ⟨42#32, true, [], []⟩ ∧
    (0 : Nibble).toNat = 0 ∧ 5 ≤ (5 : Nibble).toNat ∧ 1 ≤ (1 : Nibble).toNat ∧ (4 : Nibble).toNat ≤ 4 ∧
    (1 : Data) ≠ 0 ∧ (one 42 false).insts[(one 42 false).cur]? = some ⟨42#32, false, [], []⟩ := by decide
theorem witness_XorwXorsItsLanes : (one 42 true).insts[(one 42 true).cur]? = some ⟨42#32, true, [], []⟩ ∧
    (0xFF#32).toNat / 2 ^ (8 * (1 : Nibble).toNat) = 0 ∧ (0x100#32).toNat / 2 ^ (8 * (1 : Nibble).toNat) ≠ 0 ∧
    (0xFFFFFFFF#32).toNat / 2 ^ (8 * (4 : Nibble).toNat) = 0 ∧
    (one 42 false).insts[(one 42 false).cur]? = some ⟨42#32, false, [], []⟩ := by decide
theorem witness_IllegalRowsAnswerIllegalOpcode : State.reset.wf := by decide
theorem witness_CommandsChangeTheirOwnInstanceOnly : (∀ rsv imm32, Instr.next 0 ≠ .seed rsv imm32) ∧
    (Instr.nextw 9 0).wf = false ∧ stateOf (exec (.next 0) (two none [] [] [])) =
      some { two none [] [] [] with
        insts := [⟨0x3C88596C#32, true, [], [0x010000006C#40]⟩, ⟨2#32, true, [], []⟩] } :=
  ⟨(by intro _ _ h; cases h), by decide, by decide⟩
theorem witness_SeedsAreReducedModuloTwoToThe32 : 4294967254 < 2 ^ 32 ∧
    ((2 : Int) ^ 32) ∣ (-42) - ((4294967254 : Nat) : Int) := by decide
theorem witness_CongruentSeedsHaveOneKeystream : ((-1 : Int) % 2 ^ 32 = (2 ^ 32 - 1) % 2 ^ 32) := by decide
theorem witness_KeystreamIsOneCycleOf256 : 1 ≤ 1 ∧ (1 : Int) % 256 = 257 % 256 ∧ (1 : Int) % 256 ≠ 2 % 256 ∧
    KS 1 3 = KS 257 3 := by decide
theorem witness_XorWithTheKeystreamCancels : ([1, 2] : List Byte).length = ([3, 4] : List Byte).length := by decide
theorem witness_SeedIsIdempotentAndDrawsAreNot : (one 42 true).insts[(one 42 true).cur]? = some ⟨42#32, true, [], []⟩ ∧
    (Instr.nextw 4 0).wf = true ∧ (∀ rsv imm, Instr.nextw 4 0 ≠ .seed rsv imm) ∧
    (stateOf (exec (.nextw 4 0) (one 42 true))).map (·.insts) =
      some [⟨0x38F950FE#32, true, [], [0x04FE5BEC81#40]⟩] :=
  ⟨by decide, by decide, (by intro _ _ h; cases h), by decide⟩

/-- A split with every draw command in it. -/
def mixed : List DrawCmd := [.next, .xorb 0xFF#8, .nextw 2, .xorw [1, 2, 3, 4]]

theorem witness_EverySplitDrawsTheSameStream : State.reset.wf ∧ State.reset.drained 0 ∧ (∀ d ∈ mixed, d.ok = true) ∧
    (State.reset.transactAll (onPort 0 (splitWords 42 mixed))).map (validBytes ·.1) =
      some [0x81, 0x13, 0x5B, 0xFE, 0x44, 0xE2, 0xBC, 0x16] :=
  ⟨by decide, ⟨_, rfl, rfl, rfl⟩, by decide, by decide⟩
theorem witness_KeystreamMacroReturnsTheKeystream :
    (∀ d ∈ [DrawCmd.next, .nextw 4], d.ok = true ∧ d.isKeystream = true) ∧ (carriedBy [DrawCmd.next, .nextw 4]).length = 5 ∧
    (carriedBy []).length = 0 := by decide
theorem witness_EncryptMacroReturnsTheCiphertext :
    (∀ d ∈ [DrawCmd.xorb 1, .xorw [2, 3]], d.ok = true ∧ d.isKeystream = false) ∧
    carriedBy [DrawCmd.xorb 1, .xorw [2, 3]] = [1, 2, 3] ∧ carriedBy [] = [] := by decide
theorem witness_AnySplitDeciphersAnyOther :
    (State.reset.transactAll (onPort 0 (splitWords 1 [.xorw [0x48, 0x45, 0x4C, 0x4C], .xorb 0x4F]))).map
      (validBytes ·.1) = some [0x24, 0x9E, 0x32, 0x89, 0x2F] ∧
    carriedBy [.xorw [0x24, 0x9E], .xorb 0x32, .xorw [0x89, 0x2F]] = [0x24, 0x9E, 0x32, 0x89, 0x2F] ∧
    ∀ d ∈ [DrawCmd.xorw [0x24, 0x9E], .xorb 0x32, .xorw [0x89, 0x2F]], d.ok = true := by decide
theorem witness_BlockOperationsNeverFault : assemble (.encrypt 99 [65]) = some [0x1000000063#40, 0x3000000041#40] ∧
    assemble (.keystream 1 0) = some [0x1000000001#40] ∧ assemble (.decrypt 1 [255]) = some [0x1000000001#40, 0x30000000FF#40] ∧
    isBlockStream [0x1000000063#40, 0x4400000000#40] = true ∧ allLegal [0x1000000063#40, 0x4400000000#40] = true := by decide
theorem witness_DecryptOfEncryptIsThePlaintext : (1 : Int) % 256 = 257 % 256 ∧ decrypt 257 (encrypt 1 [7, 8]) = [7, 8] := by
  decide
theorem witness_WrongSeedDiffersAtEveryByte : ([7, 8] : List Byte)[1]? = some 8 ∧ (1 : Int) % 256 ≠ 2 % 256 := by decide
theorem witness_CiphertextsAgreeExactlyModulo256 : ([7] : List Byte) ≠ [] ∧ encrypt 1 [7] = encrypt 257 [7] := by decide
theorem witness_AssembledWordsAreLegal : assemble (.xorw 1 [255]) = some [0x51000000FF#40] ∧
    (∀ w, AsmLine.xorw 1 [255] ≠ .raw w) := ⟨by decide, (by intro _ h; cases h)⟩
theorem witness_AssemblerEncodesOrRefuses : (1 ≤ 4 ∧ 4 ≤ 4 ∧ [1, 2, 3, 255].length = 4 ∧ ∀ b ∈ [1, 2, 3, 255], b ≤ 255) ∧
    assemble (.xorw 4 [1, 2, 3, 255]) = some [0x54FF030201#40] ∧ ¬(1 ≤ 1 ∧ 1 ≤ 4 ∧ [256].length = 1 ∧ ∀ b ∈ [256], b ≤ 255) := by
  decide
theorem witness_StepExecutesTheOldestWord : (two none [] [0x2000000000#40, 0x0#40] []).nextPort = some 1 ∧
    (two none [] [0x2000000000#40, 0x0#40] []).insts[1]? = some ⟨2#32, true, [0x2000000000#40, 0x0#40], []⟩ := by decide
theorem witness_PlacedWordIsExecutedNext : (two (some 1) [] [] [0#40]).wf ∧
    (two (some 1) [] [] [0#40]).insts[(two (some 1) [] [] [0#40]).cur]? = some ⟨1#32, true, [], [0#40]⟩ ∧
    (stateOf (step ((two (some 1) [] [] [0#40]).withFetchWord 40 0x2000000000))).map (·.insts) =
      some [⟨0x3C88596C#32, true, [], [0x010000006C#40]⟩, ⟨2#32, true, [], []⟩] := by decide
theorem witness_ServiceFollowsTheOrderGiven : { two none [0#40] [0#40] [] with sched := [1, 0] }.nextPort = some 1 ∧
    { two none [] [0#40] [] with sched := [0] }.nextPort = none ∧ (two none [] [0#40] []).nextPort = some 1 ∧
    State.reset.nextPort = none := by decide
theorem witness_OnlySeedAndDrawsWriteS :
    ((two none [0x2000000000#40] [] []).event .step).map (·.2.insts) =
      some [⟨0x3C88596C#32, true, [], [0x010000006C#40]⟩, ⟨2#32, true, [], []⟩] ∧
    ((two none [0x1000000005#40] [] []).event .step).map (·.2.insts) =
      some [⟨5#32, true, [], [0#40]⟩, ⟨2#32, true, [], []⟩] ∧ (∀ L, Event.step ≠ .reset L) :=
  ⟨by decide, by decide, (by intro _ h; cases h)⟩
theorem witness_OnlySeedAndResetWriteSeeded :
    ((one 1 true).event (.reset [])).map (·.2.insts) = some [⟨1#32, false, [], []⟩] ∧
    (((one 1 false).present 0 0x1000000005#40).event .step).map (·.2.insts) = some [⟨5#32, true, [], [0#40]⟩] := by decide
/-- A run in which instance 0 is idle while instance 1 executes and the host takes its response. -/
def busyOther : List Event := [.present 1 0x2000000000#40, .serve 0, .step, .step, .take 1, .take 0]
theorem witness_IdleInstanceKeepsItsState : noReset busyOther = true ∧ presentedTo 0 busyOther = [] ∧
    ((two none [] [] []).runEvents busyOther).map (fun x => (x.1, x.2.insts)) =
      some ([(1, 0x0100000079#40)], [⟨1#32, true, [], []⟩, ⟨0x3CA1BF79#32, true, [], []⟩]) := by decide
theorem witness_CommandIsTheReferenceStep : (one 42 false).insts[(one 42 false).cur]? = some ⟨42#32, false, [], []⟩ := by
  decide
theorem witness_EveryRunIsTheFoldOfTheReferenceStep : noReset busyOther = true ∧
    (two none [] [] []).insts[1]? = some ⟨2#32, true, [], []⟩ ∧ presentedTo 1 busyOther = [0x2000000000#40] ∧
    refRun [0x2000000000] 2 true = (0x3CA1BF79, true, [0x0100000079]) := by decide
theorem witness_InstancesDoNotInterfere : presentedTo 1 busyOther = presentedTo 0 [.present 0 0x2000000000#40, .step, .take 0] ∧
    ((one 2 true).runEvents [.present 0 0x2000000000#40, .step, .take 0]).map (fun x => (x.1, x.2.insts)) =
      some ([(0, 0x0100000079#40)], [⟨0x3CA1BF79#32, true, [], []⟩]) := by decide
theorem witness_ResponsesAfterSeedDependOnTheSeedOnly : (two none [] [] []).wf ∧ (two none [] [] []).drained 1 ∧
    (one 9 false).wf ∧ (one 9 false).drained 0 :=
  ⟨by decide, ⟨_, rfl, rfl, rfl⟩, by decide, ⟨_, rfl, rfl, rfl⟩⟩
theorem witness_HighBitsOfSAreUnobservable : (one 0xABCDEF01#32 true).visible = (one 1 true).visible ∧
    (one 5 false).visible = (one 6 false).visible := by decide
theorem witness_ResetClearsSeededAndEmptiesTheChannels : 0 < (one 1 true).insts.length ∧ (Instr.nextw 4 0).wf = true ∧
    (∀ imm, Instr.nextw 4 0 ≠ .seed 0 imm) := ⟨by decide, by decide, (by intro _ h; cases h)⟩
theorem witness_ResetSatisfiesTheInvariant : 1 ≤ 1 ∧ (State.resetN 1).insts.length = 1 := by decide
theorem witness_rspWf : rspWf 0x04FE5BEC81#40 ∧ rspWf 0x4000000000#40 :=
  ⟨⟨by decide, by decide, by decide, by decide⟩, ⟨by decide, by decide, by decide, by decide⟩⟩
theorem witness_StepKeepsTheInvariant : (two (some 2) [0x5400000000#40] [] [0x04FE5BEC81#40]).Inv :=
  ⟨by decide, by simpa [two] using witness_rspWf.1⟩
theorem witness_EveryRunKeepsTheInvariant : (two (some 1) [] [] [0x4000000000#40]).Inv :=
  ⟨by decide, by simpa [two] using witness_rspWf.2⟩
theorem witness_FullResponseChannelStallsItsOwnInstanceOnly : 1 ≤ [0#40].length ∧
    stateOf (step (two (some 1) [0x2000000000#40] [] [0#40])) = some (two (some 1) [0x2000000000#40] [] [0#40]) ∧
    CoreInst.hasRoom (some 1) ⟨2#32, true, [0x2000000000#40], []⟩ = true := by decide
theorem witness_WaitingCommandsAreAllExecuted : (two none [0x2000000000#40] [0#40] []).wf ∧
    (two none [0x2000000000#40] [0#40] []).rspDepth = none ∧ (two none [0x2000000000#40] [0#40] []).sched = [] := by decide

end Sys2Proof.Tests
end

namespace Sys2Proof.Machine

/-! ### Legal encodings -/

theorem reservedRejection_eq_none_iff {n : Nat} {rsv : BitVec n} : reservedRejection rsv = none ↔ rsv = 0 := by
  simp [reservedRejection]

theorem xorwReserved_eq_zero_iff {len : Nibble} {data : Data} :
    xorwReserved len data = 0 ↔ data.toNat / 2 ^ (8 * len.toNat) = 0 := by
  rw [← BitVec.toNat_inj, xorwReserved, BitVec.toNat_ushiftRight, Nat.shiftRight_eq_div_pow]
  rfl

/-- The checks 1 to 3 of 30_encoding.md R51 pass exactly the legal commands of R48. -/
theorem rejection_eq_none_iff_wf {i : Instr} : rejection i = none ↔ i.wf = true := by
  cases i with
  | seed rsv imm => simp [rejection, Instr.wf, reservedRejection_eq_none_iff]
  | next rsv => simp [rejection, Instr.wf, reservedRejection_eq_none_iff]
  | xorb rsv d8 => simp [rejection, Instr.wf, reservedRejection_eq_none_iff]
  | nextw len rsv =>
    simp [rejection, Instr.wf, reservedRejection_eq_none_iff, lengthRejection_none, lengthLegal]
  | xorw len data =>
    simp only [rejection, Instr.wf, Option.or_eq_none_iff, lengthRejection_none, reservedRejection_eq_none_iff,
      xorwReserved_eq_zero_iff, lengthLegal, upperLanesZero, Bool.and_eq_true, decide_eq_true_eq]
  | illegalOp0 rest => simp [rejection, Instr.wf]
  | illegalOp67 rest => simp [rejection, Instr.wf]
  | illegalOp8F rest => simp [rejection, Instr.wf]

theorem decode_of_opField_one {w : Word40} (h : opField w = 1) :
    decode w = .seed (lenField w) (dataField w) := by
  simp [decode, h]

theorem opField_ne_one_of_isDraw {w : Word40} (h : IsDraw (decode w)) : opField w ≠ 1 :=
  fun h1 => h _ _ (decode_of_opField_one h1)

/-! ### What writes `S` (10_state.md R15) -/

@[simp] theorem CoreInst.takeFault_S (c : CoreInst) (f : FaultCode) : (c.takeFault f).S = c.S := rfl
@[simp] theorem CoreInst.drawn_S (c : CoreInst) (len : Nibble) (ds : List Byte) :
    (c.drawn len ds).S = lcg^[len.toNat] c.S := rfl

@[simp] theorem State.served_same (s : State) (p : Nat) (w : Word40) :
    (s.served p w).insts[p]? =
      s.insts[p]?.map fun c => CoreInst.after (decode w) { c with cmds := c.cmds.tail } :=
  State.updInst_same s p _

theorem State.served_other (s : State) {p q : Nat} (w : Word40) (h : q ≠ p) :
    (s.served p w).insts[q]? = s.insts[q]? :=
  State.updInst_other s _ h

/-- `w` is a legal `SEED` with immediate `S'`, or a legal draw on `c`, seeded, that moves `S` on to `S'`. -/
def CoreInst.WritesS (w : Word40) (c : CoreInst) (S' : Data) : Prop :=
  (decode w).wf = true ∧ ((∃ imm, decode w = .seed 0 imm ∧ S' = imm) ∨
    (opField w ≠ 1 ∧ c.seeded = true ∧ ∃ n, 1 ≤ n ∧ n ≤ 4 ∧ S' = lcg^[n] c.S))

/-- A command keeps `S` or is one of those that write it: a fault writes nothing (60_exceptions.md R102). -/
theorem CoreInst.after_keeps_or_writes_S (w : Word40) (c : CoreInst) :
    (c.after (decode w)).S = c.S ∨ c.WritesS w (c.after (decode w)).S := by
  rcases CoreInst.after_cases (decode w) c with ⟨f, -, h⟩ | ⟨-, -, -, h⟩ | ⟨imm, hi, h⟩ |
    ⟨len, ds, hr, hd, hs, h1, h4, -, h⟩
  · exact .inl (by rw [h, CoreInst.takeFault_S])
  · exact .inl (by rw [h, CoreInst.takeFault_S])
  · have hwf : (decode w).wf = true := by rw [hi]; rfl
    exact .inr ⟨hwf, .inl ⟨imm, hi, by rw [h, CoreInst.respond_S, CoreInst.seedWith_S]⟩⟩
  · exact .inr ⟨rejection_eq_none_iff_wf.mp hr,
      .inr ⟨opField_ne_one_of_isDraw hd, hs, len.toNat, h1, h4, by rw [h, CoreInst.drawn_S]⟩⟩

/-- An update whose function keeps `S` keeps it everywhere. -/
theorem State.updInst_keeps_S {s : State} {p q : Nat} {f : CoreInst → CoreInst} {c c' : CoreInst}
    (hf : ∀ c, (f c).S = c.S) (hc : s.insts[p]? = some c) (hc' : (s.updInst q f).insts[p]? = some c') :
    c'.S = c.S := by
  by_cases hpq : p = q
  · subst hpq
    rw [State.updInst_same, hc] at hc'
    cases hc'
    exact hf c
  · rw [State.updInst_other s f hpq, hc] at hc'
    cases hc'
    rfl

theorem State.present_keeps_S {s : State} {p q : Nat} {w : Word40} {c c' : CoreInst} (hc : s.insts[p]? = some c)
    (hc' : (s.present q w).insts[p]? = some c') : c'.S = c.S :=
  State.updInst_keeps_S (f := fun c => { c with cmds := c.cmds ++ [w] }) (fun _ => rfl) hc hc'

theorem State.take_keeps_S {s : State} {p q : Nat} {c c' : CoreInst} (hc : s.insts[p]? = some c)
    (hc' : (s.take q).2.insts[p]? = some c') : c'.S = c.S :=
  State.updInst_keeps_S (f := fun c => { c with rsps := c.rsps.tail }) (fun _ => rfl) hc hc'

/-- A step that changes the `S` at port `p` serves `p`, with a word that writes `S`. -/
theorem step_writes_S {s t : State} {p : Nat} {c c' : CoreInst} (h : step s = .next t)
    (hc : s.insts[p]? = some c) (hc' : t.insts[p]? = some c') (hS : c'.S ≠ c.S) :
    s.nextPort = some p ∧ ∃ w, c.cmds.head? = some w ∧ c.WritesS w c'.S := by
  rcases step_cases s with ⟨-, hidle⟩ | ⟨q, d, w, hq, hd, hw, hserved⟩
  · obtain rfl : s.idle = t := Host.Outcome.next.inj (hidle.symm.trans h)
    rw [State.idle_insts, hc] at hc'
    cases hc'
    exact absurd rfl hS
  · obtain rfl : s.served q w = t := Host.Outcome.next.inj (hserved.symm.trans h)
    by_cases hpq : p = q
    · subst hpq
      obtain rfl : d = c := Option.some.inj (hd.symm.trans hc)
      rw [State.served_same, hd] at hc'
      cases hc'
      exact ⟨hq, w, hw, (CoreInst.after_keeps_or_writes_S w _).resolve_left hS⟩
    · rw [State.served_other s w hpq, hc] at hc'
      cases hc'
      exact absurd rfl hS

/-- Settles O43: a step goes by `step_writes_S`; a host move other than reset keeps every `S`. -/
theorem onlySeedAndDrawsWriteS : Obligations.OnlySeedAndDrawsWriteS := by
  intro s t e os p c c' he hreset hc hc' hS
  cases e with
  | step =>
    obtain ⟨u, hu⟩ := step_total s
    simp only [State.event, hu] at he
    cases he
    obtain ⟨hp, w, hw, hwf, hwrites⟩ := step_writes_S hu hc hc' hS
    exact ⟨rfl, hp, w, hw, hwf, hwrites⟩
  | present q w =>
    cases he
    exact absurd (State.present_keeps_S hc hc') hS
  | take q =>
    cases he
    exact absurd (State.take_keeps_S hc hc') hS
  | serve q =>
    cases he
    exact absurd (congrArg CoreInst.S (Option.some.inj (hc'.symm.trans hc))) hS
  | reset L => exact absurd rfl (hreset L)

end Sys2Proof.Machine

namespace Sys2Proof.Machine

/-! ### The progress at one port of a run (20_memory.md R27, R38, R39)

Whatever else happens in the core, the words of one port are executed there in order. `CoreInst.Progress` says so without
naming the rest of the core, and a run is a chain of such progresses. -/

/-- `c` after executing the words, oldest first; its own command channel is not read. -/
def CoreInst.executes (c : CoreInst) (ws : List Word40) : CoreInst :=
  ws.foldl (fun c w => c.after (decode w)) c

@[simp] theorem CoreInst.executes_nil (c : CoreInst) : c.executes [] = c := rfl
@[simp] theorem CoreInst.executes_cons (c : CoreInst) (w : Word40) (ws : List Word40) :
    c.executes (w :: ws) = (c.after (decode w)).executes ws := rfl
theorem CoreInst.executes_append (c : CoreInst) (ws ws' : List Word40) :
    c.executes (ws ++ ws') = (c.executes ws).executes ws' := List.foldl_append

/-- `c` with `cmds` as its command channel and `rs` before its responses. -/
def CoreInst.framed (c : CoreInst) (rs cmds : List Word40) : CoreInst :=
  { c with cmds := cmds, rsps := rs ++ c.rsps }

@[simp] theorem CoreInst.framed_rsps (c : CoreInst) (rs cmds : List Word40) : (c.framed rs cmds).rsps = rs ++ c.rsps := rfl
theorem CoreInst.framed_self (c : CoreInst) : c.framed [] c.cmds = c := rfl
theorem CoreInst.framed_framed (c : CoreInst) (rs rs' cmds cmds' : List Word40) :
    (c.framed rs cmds).framed rs' cmds' = c.framed (rs' ++ rs) cmds' := by
  simp [CoreInst.framed]

/-- A command neither reads its channels nor touches what is in them. -/
theorem CoreInst.after_framed (i : Instr) (c : CoreInst) (rs cmds : List Word40) :
    (c.framed rs cmds).after i = (c.after i).framed rs cmds := by
  obtain ⟨r, hr, h⟩ := CoreInst.after_channels i c cmds (rs ++ c.rsps)
  rw [CoreInst.framed, h, CoreInst.framed, hr, List.append_assoc]

theorem CoreInst.executes_framed (c : CoreInst) (ws rs cmds : List Word40) :
    (c.framed rs cmds).executes ws = (c.executes ws).framed rs cmds := by
  induction ws generalizing c with
  | nil => rfl
  | cons w ws ih => rw [CoreInst.executes_cons, CoreInst.after_framed, ih, CoreInst.executes_cons]

/-- From `c` to `c'` while the host presented the words `ws` and took the responses `rs`: `done`, the words that left the
command channel, have been executed in order, and nothing else has happened. -/
def CoreInst.Progress (c : CoreInst) (ws rs : List Word40) (c' : CoreInst) : Prop :=
  ∃ done, c.cmds ++ ws = done ++ c'.cmds ∧ (c.framed [] c'.cmds).executes done = c'.framed rs c'.cmds

theorem CoreInst.Progress.refl (c : CoreInst) : c.Progress [] [] c := ⟨[], by simp, rfl⟩

theorem CoreInst.Progress.trans {c c₁ c₂ : CoreInst} {ws ws' rs rs' : List Word40} (h : c.Progress ws rs c₁)
    (h' : c₁.Progress ws' rs' c₂) : c.Progress (ws ++ ws') (rs ++ rs') c₂ := by
  obtain ⟨done, hws, hdone⟩ := h
  obtain ⟨done', hws', hdone'⟩ := h'
  refine ⟨done ++ done', by rw [← List.append_assoc, hws, List.append_assoc, hws', List.append_assoc], ?_⟩
  calc (c.framed [] c₂.cmds).executes (done ++ done')
      = (((c.framed [] c₁.cmds).executes done).framed [] c₂.cmds).executes done' := by
        rw [CoreInst.executes_append, ← CoreInst.executes_framed, CoreInst.framed_framed, List.append_nil]
    _ = ((c₁.framed [] c₂.cmds).executes done').framed rs c₂.cmds := by
        rw [hdone, ← CoreInst.executes_framed, CoreInst.framed_framed, CoreInst.framed_framed, List.append_nil,
          List.nil_append]
    _ = c₂.framed (rs ++ rs') c₂.cmds := by rw [hdone', CoreInst.framed_framed]

theorem CoreInst.progress_present (c : CoreInst) (w : Word40) :
    c.Progress [w] [] { c with cmds := c.cmds ++ [w] } := ⟨[], rfl, rfl⟩

theorem CoreInst.progress_take (c : CoreInst) :
    c.Progress [] c.rsps.head?.toList { c with rsps := c.rsps.tail } := by
  refine ⟨[], by simp, ?_⟩
  cases h : c.rsps <;> simp [CoreInst.framed, h]

/-- The progress of a step that executes the oldest word. -/
theorem CoreInst.progress_after {c : CoreInst} {w : Word40} (hw : c.cmds.head? = some w) :
    c.Progress [] [] (CoreInst.after (decode w) { c with cmds := c.cmds.tail }) := by
  obtain ⟨r, -, hcmds⟩ := CoreInst.after_responds (decode w) { c with cmds := c.cmds.tail }
  refine ⟨[w], ?_, ?_⟩
  · rw [hcmds, List.append_nil]
    exact (List.cons_head?_tail hw).symm
  · rw [CoreInst.framed_self, hcmds]
    rfl

/-! ### What a run shows at one port -/

theorem presentedTo_cons (p : Nat) (e : Event) (es : List Event) :
    presentedTo p (e :: es) = presentedTo p [e] ++ presentedTo p es :=
  List.filterMap_append (l := [e])

theorem takenFrom_append (p : Nat) (os os' : List Observation) :
    takenFrom p (os ++ os') = takenFrom p os ++ takenFrom p os' := List.filterMap_append

theorem presentedTo_present_same (p : Nat) (w : Word40) : presentedTo p [.present p w] = [w] := by
  simp [presentedTo]

theorem presentedTo_present_other {p q : Nat} (w : Word40) (h : q ≠ p) : presentedTo p [.present q w] = [] := by
  simp [presentedTo, h]

theorem takenFrom_same (p : Nat) (r : Option Word40) : takenFrom p (r.map fun r => (p, r)).toList = r.toList := by
  cases r <;> simp [takenFrom]

theorem takenFrom_other {p q : Nat} (r : Option Word40) (h : q ≠ p) :
    takenFrom p (r.map fun r => (q, r)).toList = [] := by
  cases r <;> simp [takenFrom, h]

theorem noReset_cons {e : Event} {es : List Event} (h : noReset (e :: es) = true) :
    (∀ L, e ≠ .reset L) ∧ noReset es = true := by
  simp only [noReset, List.all_cons, Bool.and_eq_true] at h
  exact ⟨fun L he => by simp [he] at h, h.2⟩

/-- A run of one event and more goes through the State after that event. -/
theorem State.runEvents_cons {e : Event} {es : List Event} {s t : State} {os : List Observation}
    (h : s.runEvents (e :: es) = some (os, t)) :
    ∃ os₁ s₁ os₂, s.event e = some (os₁, s₁) ∧ s₁.runEvents es = some (os₂, t) ∧ os = os₁ ++ os₂ := by
  rw [State.runEvents] at h
  split at h
  · cases h
  next os₁ s₁ he =>
    obtain ⟨⟨os₂, u⟩, hrun, heq⟩ := Option.map_eq_some_iff.mp h
    cases heq
    exact ⟨os₁, s₁, os₂, he, hrun, rfl⟩

/-! ### No port is disturbed by another -/

/-- The progress at `p` over one step of the core, whichever port the step serves. -/
theorem step_progress {s t : State} {p : Nat} {c : CoreInst} (h : step s = .next t) (hc : s.insts[p]? = some c) :
    ∃ c', t.insts[p]? = some c' ∧ c.Progress [] [] c' := by
  rcases step_cases s with ⟨-, hidle⟩ | ⟨q, d, w, -, hd, hw, hserved⟩
  · obtain rfl : s.idle = t := Host.Outcome.next.inj (hidle.symm.trans h)
    exact ⟨c, hc, .refl c⟩
  · obtain rfl : s.served q w = t := Host.Outcome.next.inj (hserved.symm.trans h)
    by_cases hpq : p = q
    · subst hpq
      obtain rfl : d = c := Option.some.inj (hd.symm.trans hc)
      exact ⟨_, by rw [State.served_same, hd]; rfl, CoreInst.progress_after hw⟩
    · exact ⟨c, by rw [State.served_other s w hpq, hc], .refl c⟩

theorem State.present_progress {s : State} {p : Nat} {c : CoreInst} (q : Nat) (w : Word40)
    (hc : s.insts[p]? = some c) :
    ∃ c', (s.present q w).insts[p]? = some c' ∧ c.Progress (presentedTo p [.present q w]) [] c' := by
  by_cases hqp : q = p
  · subst hqp
    rw [presentedTo_present_same]
    exact ⟨_, by rw [State.present, State.updInst_same, hc]; rfl, c.progress_present w⟩
  · rw [presentedTo_present_other w hqp]
    exact ⟨c, by rw [State.present, State.updInst_other s _ (Ne.symm hqp), hc], .refl c⟩

theorem State.take_progress {s : State} {p : Nat} {c : CoreInst} (q : Nat) (hc : s.insts[p]? = some c) :
    ∃ c', (s.take q).2.insts[p]? = some c' ∧
      c.Progress [] (takenFrom p ((s.take q).1.map fun r => (q, r)).toList) c' := by
  by_cases hqp : q = p
  · subst hqp
    have hhead : (s.take q).1 = c.rsps.head? := by rw [State.take, hc]; rfl
    rw [takenFrom_same, hhead]
    exact ⟨_, by rw [State.take, State.updInst_same, hc]; rfl, c.progress_take⟩
  · rw [takenFrom_other _ hqp]
    exact ⟨c, by rw [State.take, State.updInst_other s _ (Ne.symm hqp), hc], .refl c⟩

theorem State.event_progress {s t : State} {e : Event} {os : List Observation} {p : Nat} {c : CoreInst}
    (hreset : ∀ L, e ≠ .reset L) (he : s.event e = some (os, t)) (hc : s.insts[p]? = some c) :
    ∃ c', t.insts[p]? = some c' ∧ c.Progress (presentedTo p [e]) (takenFrom p os) c' := by
  cases e with
  | step =>
    obtain ⟨u, hu⟩ := step_total s
    simp only [State.event, hu] at he
    cases he
    exact step_progress hu hc
  | present q w =>
    cases he
    exact State.present_progress q w hc
  | take q =>
    cases he
    exact State.take_progress q hc
  | serve q =>
    cases he
    exact ⟨c, hc, .refl c⟩
  | reset L => exact absurd rfl (hreset L)

/-- Over a run without a reset, what happens at `p` is the words presented there being executed in order (20_memory.md R38). -/
theorem State.runEvents_progress {es : List Event} {s t : State} {os : List Observation} {p : Nat} {c : CoreInst}
    (hes : noReset es = true) (hrun : s.runEvents es = some (os, t)) (hc : s.insts[p]? = some c) :
    ∃ c', t.insts[p]? = some c' ∧ c.Progress (presentedTo p es) (takenFrom p os) c' := by
  induction es generalizing s os c with
  | nil =>
    cases hrun
    exact ⟨c, hc, .refl c⟩
  | cons e es ih =>
    obtain ⟨hreset, hes⟩ := noReset_cons hes
    obtain ⟨os₁, s₁, os₂, he, hrest, rfl⟩ := State.runEvents_cons hrun
    obtain ⟨c₁, hc₁, h₁⟩ := State.event_progress hreset he hc
    obtain ⟨c₂, hc₂, h₂⟩ := ih hes hrest hc₁
    rw [presentedTo_cons, takenFrom_append]
    exact ⟨c₂, hc₂, h₁.trans h₂⟩

/-- With an empty command channel at the end, all the words have been executed. -/
theorem CoreInst.Progress.eq_of_drained {c c' : CoreInst} {ws rs : List Word40} (h : c.Progress ws rs c')
    (hcmds : c'.cmds = []) : c'.framed rs [] = (c.framed [] []).executes (c.cmds ++ ws) := by
  obtain ⟨done, hws, hdone⟩ := h
  rw [hcmds] at hws hdone
  rw [hws, List.append_nil, hdone]

/-- What a drained run leaves at `p`, with the responses taken put back, is determined by the words presented to `p`. -/
theorem State.runEvents_drained {es : List Event} {s t : State} {os : List Observation} {p : Nat} {c : CoreInst}
    (hes : noReset es = true) (hrun : s.runEvents es = some (os, t)) (hc : s.insts[p]? = some c) (ht : t.drained p) :
    ∃ c', t.insts[p]? = some c' ∧ c'.cmds = [] ∧ c'.rsps = [] ∧
      c'.framed (takenFrom p os) [] = (c.framed [] []).executes (c.cmds ++ presentedTo p es) := by
  obtain ⟨c', hc', hcmds, hrsps⟩ := ht
  obtain ⟨d, hd, hprogress⟩ := State.runEvents_progress hes hrun hc
  obtain rfl : d = c' := Option.some.inj (hd.symm.trans hc')
  exact ⟨d, hd, hcmds, hrsps, hprogress.eq_of_drained hcmds⟩

/-- With empty channels, the responses put back and all the rest can be read off. -/
theorem CoreInst.framed_inj_of_empty {c d : CoreInst} {rs rs' : List Word40} (hc : c.cmds = []) (hc' : c.rsps = [])
    (hd : d.cmds = []) (hd' : d.rsps = []) (h : c.framed rs [] = d.framed rs' []) : rs = rs' ∧ c = d := by
  have hrs : rs = rs' := by simpa [hc', hd'] using congrArg CoreInst.rsps h
  obtain ⟨S, seeded, cmds, rsps⟩ := c
  obtain ⟨S', seeded', cmds', rsps'⟩ := d
  subst hc hc' hd hd'
  simp only [CoreInst.framed, CoreInst.mk.injEq] at h
  obtain ⟨rfl, rfl, -, -⟩ := h
  exact ⟨hrs, rfl⟩

/-- Settles O48: what each run takes and leaves is a function of `c` and the words presented to it, by
`State.runEvents_drained`. -/
theorem instancesDoNotInterfere : Obligations.InstancesDoNotInterfere := by
  intro es₁ es₂ s₁ s₂ t₁ t₂ os₁ os₂ p₁ p₂ c hes₁ hes₂ hc₁ hc₂ _ _ hrun₁ hrun₂ hpresented ht₁ ht₂
  obtain ⟨c₁, hi₁, hcmds₁, hrsps₁, h₁⟩ := State.runEvents_drained hes₁ hrun₁ hc₁ ht₁
  obtain ⟨c₂, hi₂, hcmds₂, hrsps₂, h₂⟩ := State.runEvents_drained hes₂ hrun₂ hc₂ ht₂
  have hsame : c₁.framed (takenFrom p₁ os₁) [] = c₂.framed (takenFrom p₂ os₂) [] := by rw [h₁, h₂, hpresented]
  obtain ⟨htaken, rfl⟩ := CoreInst.framed_inj_of_empty hcmds₁ hrsps₁ hcmds₂ hrsps₂ hsame
  exact ⟨htaken, hi₁.trans hi₂.symm⟩

end Sys2Proof.Machine

namespace Sys2Proof.Machine

/-! ### The update function and the emitted byte as numbers (40_generator.md R55, R56, R58) -/

/-- The recurrence of 40_generator.md R56. -/
theorem lcg_toNat (s : Data) : (lcg s).toNat = (1664525 * s.toNat + 1013904223) % 2 ^ 32 := by
  have hA : Config.A.toNat = 1664525 := rfl
  have hC : Config.C.toNat = 1013904223 := rfl
  rw [lcg_eq, BitVec.toNat_add, BitVec.toNat_mul, hA, hC, Nat.mod_add_mod]

theorem norm32_toNat (z : Int) : ((norm32 z).toNat : Int) = z % 2 ^ 32 := by
  rw [norm32, BitVec.toNat_ofNat]
  omega

theorem lowByte_toNat (s : Data) : (lowByte s).toNat = s.toNat % 256 := by
  simp [lowByte]

/-- Settles O21, by `lcg_toNat`; the bound holds since `s < 2^32`. -/
theorem updateIsTheRecurrence : Obligations.UpdateIsTheRecurrence := by
  intro s
  have hs : s.toNat < 2 ^ 32 := s.isLt
  exact ⟨lcg_toNat s, by omega⟩

/-- Settles O20, by `norm32_toNat`: two values below 2^32 that are congruent modulo 2^32 are equal. -/
theorem seedsAreReducedModuloTwoToThe32 : Obligations.SeedsAreReducedModuloTwoToThe32 := by
  refine ⟨fun z => ⟨norm32_toNat z, fun v hv hdvd => ?_⟩, by decide⟩
  have hz := norm32_toNat z
  omega

/-- Congruent seeds are one seed (40_generator.md R62). -/
theorem norm32_eq_iff {z₁ z₂ : Int} : norm32 z₁ = norm32 z₂ ↔ z₁ % 2 ^ 32 = z₂ % 2 ^ 32 := by
  rw [← norm32_toNat, ← norm32_toNat, Int.natCast_inj, BitVec.toNat_inj]

/-- The state sequence is the updates of the reduced seed (40_generator.md R60). -/
theorem stateSeq_eq (z : Int) (i : Nat) : stateSeq z i = lcg^[i] (norm32 z) := by
  induction i with
  | zero => rfl
  | succ i ih => rw [stateSeq, ih, Function.iterate_succ_apply']

/-- Settles O23: the keystream reads the seed through `norm32` only; and reduction commutes with the recurrence. -/
theorem congruentSeedsHaveOneKeystream : Obligations.CongruentSeedsHaveOneKeystream := by
  refine ⟨fun z₁ z₂ hz n => ?_, fun z => ?_⟩
  · have hk : keystream z₁ = keystream z₂ := by
      funext i
      rw [keystream, keystream, stateSeq_eq, stateSeq_eq, norm32_eq_iff.mpr hz]
    rw [KS, KS, hk]
  · rw [stateSeq, stateSeq, lcg_toNat]
    have hz := norm32_toNat z
    omega

/-! ### Jumping ahead (40_generator.md R64) -/

theorem lcg_iterate_eq_jump (k : Nat) (s : Data) : lcg^[k] s = jumpA k * s + jumpC k := by
  induction k with
  | zero => simp [jumpA, jumpC]
  | succ k ih => rw [Function.iterate_succ_apply', ih, lcg_eq, jumpA, jumpC]; ring

theorem jumpA_add (m n : Nat) : jumpA (m + n) = jumpA m * jumpA n := by
  induction m with
  | zero => simp [jumpA]
  | succ m ih => rw [Nat.succ_add, jumpA, jumpA, ih, mul_assoc]

theorem jumpC_add (m n : Nat) : jumpC (m + n) = jumpA m * jumpC n + jumpC m := by
  induction m with
  | zero => simp [jumpA, jumpC]
  | succ m ih => rw [Nat.succ_add, jumpC, ih, jumpA, jumpC]; ring

/-- The constants of twice as many updates. -/
theorem jump_double {n : Nat} {a c : Data} (h : jumpA n = a ∧ jumpC n = c) :
    jumpA (n + n) = a * a ∧ jumpC (n + n) = a * c + c := by
  rw [jumpA_add, jumpC_add, h.1, h.2]
  exact ⟨rfl, rfl⟩

/-- The row `k = 8` of the table of 40_generator.md R64. -/
theorem jump_eight : jumpA 8 = 3934847009#32 ∧ jumpC 8 = 2748932008#32 := by decide

/-- The row `k = 256` of the table of 40_generator.md R64, five doublings after the row `k = 8`. -/
theorem jump_256 : jumpA 256 = 1045939201#32 ∧ jumpC 256 = 43164928#32 := by
  have h16 := jump_double jump_eight
  have h32 := jump_double h16
  have h64 := jump_double h32
  have h128 := jump_double h64
  have h256 := jump_double h128
  rw [h256.1, h256.2]
  decide

/-- Settles O25, by `lcg_iterate_eq_jump`; the recursion is that of `jumpA` and `jumpC`. -/
theorem updatesJumpAheadByOneAffineMap : Obligations.UpdatesJumpAheadByOneAffineMap :=
  ⟨lcg_iterate_eq_jump, by decide, fun _ => ⟨rfl, rfl⟩, by decide, by decide, by decide, jump_eight, jump_256⟩

/-! ### One cycle (40_generator.md R63, R65)

The update of `S` and its effect on the low byte are both maps `s ↦ (4a + 1) s + (2c + 1)`, modulo 2^32 and modulo 256. Such a
map modulo 2^w is one cycle: 2^j updates add an odd multiple of 2^j, so 2^w of them are the identity and 2^(w-1) are not. -/

/-- A map of the form that goes through all residues of a power of two in one cycle. -/
def IsOddAffine {R : Type*} [CommRing R] (f : R → R) : Prop := ∃ a c : R, ∀ s, f s = (4 * a + 1) * s + (2 * c + 1)

/-- 2^j updates add an odd multiple of 2^j. -/
theorem IsOddAffine.iterate_two_pow {R : Type*} [CommRing R] {f : R → R} (hf : IsOddAffine f) (j : Nat) :
    ∃ m u : R, ∀ s, f^[2 ^ j] s = (2 ^ (j + 2) * m + 1) * s + 2 ^ j * (2 * u + 1) := by
  induction j with
  | zero =>
    obtain ⟨a, c, h⟩ := hf
    exact ⟨a, c, fun s => by rw [pow_zero, Function.iterate_one, h]; ring⟩
  | succ j ih =>
    obtain ⟨m, u, h⟩ := ih
    refine ⟨m + 2 ^ (j + 1) * m ^ 2, 2 ^ j * m * (2 * u + 1) + u, fun s => ?_⟩
    rw [pow_succ, mul_two, Function.iterate_add_apply, h, h]
    ring

theorem bitVec_two_pow_eq_ofNat (w j : Nat) : (2 : BitVec w) ^ j = BitVec.ofNat w (2 ^ j) := by
  rw [← BitVec.natCast_eq_ofNat, Nat.cast_pow, Nat.cast_ofNat]

theorem bitVec_two_pow_eq_zero_iff {w j : Nat} : (2 : BitVec w) ^ j = 0 ↔ w ≤ j := by
  have hzero : (0 : BitVec w).toNat = 0 := BitVec.toNat_zero
  rw [bitVec_two_pow_eq_ofNat, ← BitVec.toNat_inj, BitVec.toNat_ofNat, hzero, ← Nat.dvd_iff_mod_eq_zero,
    Nat.pow_dvd_pow_iff_le_right (by decide)]

/-- Modulo 2^w such a map is periodic with 2^w and no less. -/
theorem IsOddAffine.minimalPeriod {w : Nat} {f : BitVec w → BitVec w} (hf : IsOddAffine f) (s : BitVec w) :
    Function.minimalPeriod f s = 2 ^ w := by
  cases w with
  | zero => exact Function.minimalPeriod_eq_one_iff_isFixedPt.mpr (Subsingleton.elim _ _)
  | succ j =>
    have hzero : (2 : BitVec (j + 1)) ^ (j + 1) = 0 := bitVec_two_pow_eq_zero_iff.mpr le_rfl
    apply Function.minimalPeriod_eq_prime_pow
    · intro hper
      obtain ⟨m, u, h⟩ := hf.iterate_two_pow j
      have hdiff : (2 : BitVec (j + 1)) ^ j = f^[2 ^ j] s - s - 2 ^ (j + 1) * (2 * m * s + u) := by rw [h]; ring
      rw [hper.eq, hzero, sub_self, zero_mul, sub_zero, bitVec_two_pow_eq_zero_iff] at hdiff
      exact Nat.not_succ_le_self j hdiff
    · obtain ⟨m, u, h⟩ := hf.iterate_two_pow (j + 1)
      rw [Function.IsPeriodicPt, Function.IsFixedPt, h, pow_add _ (j + 1) 2, hzero]
      ring

/-- A map modulo 2^w that comes back to `s` only after 2^w updates goes through every value once on the way. -/
theorem existsUnique_iterate_eq {w : Nat} {f : BitVec w → BitVec w} {s : BitVec w}
    (h : Function.minimalPeriod f s = 2 ^ w) (v : BitVec w) : ∃! k, k < 2 ^ w ∧ f^[k] s = v := by
  have hinj : Function.Injective fun k : Fin (2 ^ w) => f^[k] s := fun k l hkl => by
    have hk : (k : Nat) < Function.minimalPeriod f s := by rw [h]; exact k.isLt
    have hl : (l : Nat) < Function.minimalPeriod f s := by rw [h]; exact l.isLt
    exact Fin.ext (Function.iterate_injOn_Iio_minimalPeriod hk hl hkl)
  have hcard : Nat.card (Fin (2 ^ w)) = Nat.card (BitVec w) := Nat.card_congr BitVec.equivFin.symm.toEquiv
  have : Finite (BitVec w) := Finite.of_equiv _ BitVec.equivFin.symm.toEquiv
  obtain ⟨k, hk, huniq⟩ := ((Nat.bijective_iff_injective_and_card _).mpr ⟨hinj, hcard⟩).existsUnique v
  exact ⟨k, ⟨k.isLt, hk⟩, fun l ⟨hl, hlv⟩ => congrArg Fin.val (huniq ⟨l, hl⟩ hlv)⟩

/-! ### The cycle of the states (40_generator.md R65) -/

theorem isOddAffine_lcg : IsOddAffine lcg :=
  ⟨416131#32, 506952111#32, fun s => by
    rw [lcg_eq]
    rfl⟩

theorem lcgInv_lcg (s : Data) : lcgInv (lcg s) = s := by
  have hA : 4276115653#32 * Config.A = 1 := by decide
  rw [lcgInv, lcg_eq, add_sub_cancel_right, ← mul_assoc, hA, one_mul]

theorem lcg_lcgInv (s : Data) : lcg (lcgInv s) = s := by
  have hA : Config.A * 4276115653#32 = 1 := by decide
  rw [lcgInv, lcg_eq, ← mul_assoc, hA, one_mul, sub_add_cancel]

/-- The update changes the parity. -/
theorem lcg_ne_self (s : Data) : lcg s ≠ s := by
  intro h
  have hs := lcg_toNat s
  rw [h] at hs
  omega

/-- Settles O26: `lcg` has the form `IsOddAffine`, so its period is 2^32 from every state. -/
theorem updateIsOneCycleOfAllStates : Obligations.UpdateIsOneCycleOfAllStates := by
  refine ⟨fun s => ⟨lcgInv_lcg s, lcg_lcgInv s, lcg_ne_self s⟩, fun s v => ?_⟩
  have hperiod : Function.minimalPeriod lcg s = 2 ^ 32 := isOddAffine_lcg.minimalPeriod s
  exact ⟨hperiod ▸ Function.iterate_minimalPeriod, existsUnique_iterate_eq hperiod v⟩

/-! ### The cycle of the keystream bytes (40_generator.md R63) -/

/-- The map of 40_generator.md R63 from one keystream byte to the next: the update, read on the low byte. -/
def nextByte (k : Byte) : Byte := 13 * k + 95

theorem nextByte_toNat (k : Byte) : (nextByte k).toNat = (13 * k.toNat + 95) % 256 := by
  rw [nextByte, BitVec.toNat_add, BitVec.toNat_mul]
  simp

theorem lowByte_lcg (s : Data) : lowByte (lcg s) = nextByte (lowByte s) := by
  rw [← BitVec.toNat_inj, nextByte_toNat, lowByte_toNat, lowByte_toNat, lcg_toNat]
  omega

/-- The keystream is the bytes that `nextByte` goes through from the low byte of the seed. -/
theorem keystream_eq (z : Int) (i : Nat) : keystream z i = nextByte^[i + 1] (lowByte (norm32 z)) := by
  have h : Function.Semiconj lowByte lcg nextByte := lowByte_lcg
  rw [keystream, stateSeq_eq, h.iterate_right]

theorem keystream_add (z : Int) (i j : Nat) : keystream z (i + j) = nextByte^[j] (keystream z i) := by
  rw [keystream_eq, keystream_eq, ← Function.iterate_add_apply]
  congr 1
  omega

theorem nextByte_minimalPeriod (k : Byte) : Function.minimalPeriod nextByte k = 2 ^ 8 :=
  IsOddAffine.minimalPeriod ⟨3, 47, fun _ => rfl⟩ k

theorem nextByte_injective : Function.Injective nextByte := by
  intro k l h
  have hkl := congrArg BitVec.toNat h
  rw [nextByte_toNat, nextByte_toNat] at hkl
  bv_omega

theorem lowByte_norm32_eq_iff {z z' : Int} : lowByte (norm32 z) = lowByte (norm32 z') ↔ z % 256 = z' % 256 := by
  have hz := norm32_toNat z
  have hz' := norm32_toNat z'
  rw [← BitVec.toNat_inj, lowByte_toNat, lowByte_toNat]
  omega

/-- One keystream byte or more tells the seeds apart exactly modulo 256. -/
theorem KS_eq_iff {z z' : Int} {n : Nat} (hn : 1 ≤ n) : KS z n = KS z' n ↔ z % 256 = z' % 256 := by
  rw [← lowByte_norm32_eq_iff]
  constructor
  · intro h
    have h0 : keystream z 0 = keystream z' 0 := List.map_inj_left.mp h 0 (List.mem_range.mpr hn)
    rw [keystream_eq, keystream_eq] at h0
    exact nextByte_injective h0
  · intro h
    exact List.map_congr_left fun i _ => by rw [keystream_eq, keystream_eq, h]

/-- Settles O24: `nextByte` has the form `IsOddAffine`, so its period is 256 from every byte. -/
theorem keystreamIsOneCycleOf256 : Obligations.KeystreamIsOneCycleOf256 := by
  refine ⟨by decide, by decide, fun z => ⟨?_, fun i => ?_, fun i => ?_, fun i b => ?_, fun z' n => KS_eq_iff⟩⟩
  · have hz := norm32_toNat z
    rw [keystream_eq, zero_add, Function.iterate_one, nextByte_toNat, lowByte_toNat]
    omega
  · rw [keystream_add, Function.iterate_one, nextByte_toNat]
  · have h := Function.iterate_minimalPeriod (f := nextByte) (x := keystream z i)
    rwa [nextByte_minimalPeriod, ← keystream_add] at h
  · simp only [keystream_add]
    exact existsUnique_iterate_eq (nextByte_minimalPeriod _) b

end Sys2Proof.Machine

namespace Sys2Proof.Machine

/-! ### Faults, as a State is left by them (60_exceptions.md R102) -/

/-- A command whose effect on its port is a fault answers the fault's word and changes nothing else. -/
theorem exec_eq_answered {s : State} {c : CoreInst} {i : Instr} {f : FaultCode} (hc : s.insts[s.cur]? = some c)
    (h : c.after i = c.takeFault f) : exec i s = .next (s.answered (rspWord (statusOf f) 0 0)) := by
  rw [exec_of_lt i (State.cur_lt hc), State.updInst_congr (g := (·.takeFault f)) hc h]
  rfl

theorem exec_rejected {s : State} {i : Instr} {f : FaultCode} (hs : s.cur < s.insts.length)
    (hr : rejection i = some f) : exec i s = .next (s.answered (rspWord (statusOf f) 0 0)) :=
  exec_eq_answered (List.getElem?_eq_getElem hs) (CoreInst.after_rejected hr _)

theorem CoreInst.after_unseeded {i : Instr} {c : CoreInst} (hi : IsDraw i) (hr : rejection i = none)
    (hs : c.seeded = false) : c.after i = c.takeFault .unseeded := by
  obtain ⟨len, ds, -, -, -, h⟩ := CoreInst.drawn_of_legal hi hr
  rw [h, drawFault, hr, hs]
  rfl

theorem exec_unseeded {s : State} {c : CoreInst} {i : Instr} (hc : s.insts[s.cur]? = some c) (hi : IsDraw i)
    (hr : rejection i = none) (hs : c.seeded = false) : exec i s = .next (s.answered 0x4000000000#40) :=
  exec_eq_answered hc (CoreInst.after_unseeded hi hr hs)

theorem lengthRejection_eq_badLength {len : Nibble} (h : len.toNat = 0 ∨ 5 ≤ len.toNat) :
    lengthRejection len = some .badLength := by
  rw [lengthRejection_eq, if_pos h]

/-! ### `SEED` (40_generator.md R67) -/

theorem CoreInst.after_seed (imm : Data) (c : CoreInst) :
    c.after (.seed 0 imm) = { S := imm, seeded := true, cmds := c.cmds, rsps := c.rsps ++ [0x0000000000#40] } := rfl

/-- Settles O13, by `CoreInst.after_seed` and `exec_rejected`. -/
theorem seedLoadsTheImmediate : Obligations.SeedLoadsTheImmediate := by
  refine ⟨fun w => decode_of_opField_one, fun s rsv imm ⟨hcur, _⟩ => ⟨?_, fun hrsv => ?_⟩⟩
  · rintro rfl
    exact exec_of_lt _ hcur
  · exact exec_rejected hcur (i := .seed rsv imm) (reservedRejection_of_ne hrsv)

/-! ### `NEXT` (40_generator.md R68) -/

theorem CoreInst.after_next (c : CoreInst) (hs : c.seeded = true) :
    c.after (.next 0) =
      { S := lcg c.S, seeded := true, cmds := c.cmds,
        rsps := c.rsps ++ [rspWord 0 1 (zext32 (lowByte (lcg c.S)))] } := by
  obtain ⟨S, seeded, cmds, rsps⟩ := c
  subst hs
  rfl

/-- The response of one draw is `{0, 1, k}`, bit for bit. -/
theorem rspWord_one_byte (b : Byte) : rspWord 0 1 (zext32 b) = 0x01000000#32 ++ b := by
  rw [← BitVec.toNat_inj, rspWord_toNat, append_toNat, zext32, BitVec.toNat_setWidth]
  bv_omega

theorem lowByte_eq_setWidth (s : Data) : lowByte s = s.setWidth 8 := by
  simp [lowByte, ← BitVec.toNat_inj]

/-- `XORB 0` is `NEXT` (40_generator.md R68). -/
theorem exec_next_eq_xorb (s : State) : exec (.next 0) s = exec (.xorb 0 0) s := by
  have h : CoreInst.next 0 = CoreInst.xorb 0 0 := by
    funext c
    have hk (k : Byte) : 0 ^^^ k = k := BitVec.zero_xor
    simp only [CoreInst.next, CoreInst.xorb, hk]
    rfl
  exact congrArg s.onCur h

/-- Settles O14, by `CoreInst.after_next` and the lemmas on faults. -/
theorem nextDrawsOneByte : Obligations.NextDrawsOneByte := by
  refine ⟨fun w hw => by simp [decode, hw], fun s c rsv hc => ⟨?_, fun hrsv => ?_, ?_, exec_next_eq_xorb s⟩⟩
  · rintro rfl hs
    rw [exec_of_lt _ (State.cur_lt hc), ← lowByte_eq_setWidth, ← rspWord_one_byte]
    exact congrArg _ (State.updInst_congr hc (c.after_next hs))
  · exact exec_rejected (State.cur_lt hc) (i := .next rsv) (reservedRejection_of_ne hrsv)
  · rintro rfl hs
    exact exec_unseeded hc (fun _ _ => nofun) rfl hs

/-! ### `NEXTW` (40_generator.md R69) -/

theorem packLanes_cons_toNat (b : Byte) (bs : List Byte) :
    (packLanes (b :: bs)).toNat = b.toNat + 2 ^ 8 * ((packLanes bs).toNat % 2 ^ 24) := by
  have hb : (zext32 b).toNat = b.toNat := by
    rw [zext32, BitVec.toNat_setWidth_of_le (by decide)]
  have hshift : (packLanes bs).toNat * 2 ^ 8 % 2 ^ 32 = 2 ^ 8 * ((packLanes bs).toNat % 2 ^ 24) := by omega
  rw [packLanes, BitVec.toNat_or, BitVec.toNat_shiftLeft, Nat.shiftLeft_eq, hb, hshift, Nat.or_comm,
    ← Nat.two_pow_add_eq_or_of_lt b.isLt, Nat.add_comm]

/-- Lane `j` holds byte `j`, and 0 where the list has none (20_memory.md R32). -/
theorem packLanes_lane (bs : List Byte) {j : Nat} (hj : j < 4) :
    (packLanes bs).toNat / 2 ^ (8 * j) % 256 = (bs.getD j 0).toNat := by
  induction bs generalizing j with
  | nil => simp [packLanes]
  | cons b bs ih =>
    have hb : b.toNat < 2 ^ 8 := b.isLt
    rw [packLanes_cons_toNat]
    cases j with
    | zero =>
      rw [Nat.mul_zero, Nat.pow_zero, Nat.div_one, List.getD_cons_zero]
      omega
    | succ j =>
      have ih := ih (Nat.lt_of_succ_lt hj)
      rw [List.getD_cons_succ, ← ih]
      have hj3 : j < 3 := Nat.lt_of_succ_lt_succ hj
      interval_cases j <;> omega

theorem keyBytes_getD (S : Data) (n j : Nat) :
    ((keyBytes S n).getD j 0).toNat = if j < n then (lcg^[j + 1] S).toNat % 256 else 0 := by
  split
  next h => simp [keyBytes, h, lowByte]
  next h => simp [keyBytes, h]

theorem CoreInst.after_nextw {len : Nibble} (h1 : 1 ≤ len.toNat) (h4 : len.toNat ≤ 4) (c : CoreInst)
    (hs : c.seeded = true) :
    c.after (.nextw len 0) =
      { S := lcg^[len.toNat] c.S, seeded := true, cmds := c.cmds,
        rsps := c.rsps ++ [rspWord 0 len (packLanes (keyBytes c.S len.toNat))] } := by
  have hf : drawFault (.nextw len 0) c.seeded = none := by
    rw [drawFault, rejection, lengthRejection_none.mpr ⟨h1, h4⟩, hs]
    rfl
  rw [CoreInst.after, CoreInst.nextw, hf]
  simp only [CoreInst.attempt, CoreInst.draws_eq, CoreInst.respond, hs]
  rfl

/-- `NEXTW 1` is `NEXT` (40_generator.md R69). -/
theorem exec_nextw_one_eq_next (s : State) : exec (.nextw 1 0) s = exec (.next 0) s := by
  have h : CoreInst.nextw 1 0 = CoreInst.next 0 := by
    funext c
    have hpack (b : Byte) : packLanes [b] = zext32 b := BitVec.or_zero
    simp only [CoreInst.next, CoreInst.nextw, ← hpack]
    rfl
  exact congrArg s.onCur h

/-- Settles O16, by `CoreInst.after_nextw`, `packLanes_lane` and the lemmas on faults. -/
theorem nextwDrawsItsLanes : Obligations.NextwDrawsItsLanes := by
  refine ⟨fun w hw => by simp [decode, hw], fun s c len rsv hc =>
    ⟨fun hlen => ?_, fun h1 h4 hrsv => ?_, ?_, ?_, exec_nextw_one_eq_next s⟩⟩
  · refine exec_rejected (State.cur_lt hc) (f := .badLength) ?_
    rw [rejection, lengthRejection_eq_badLength hlen]
    rfl
  · refine exec_rejected (State.cur_lt hc) (f := .reservedNonzero) ?_
    rw [rejection, lengthRejection_none.mpr ⟨h1, h4⟩, reservedRejection_of_ne hrsv]
    rfl
  · rintro h1 h4 rfl hs
    refine exec_unseeded hc (fun _ _ => nofun) ?_ hs
    rw [rejection, lengthRejection_none.mpr ⟨h1, h4⟩]
    rfl
  · rintro h1 h4 rfl hs
    refine ⟨packLanes (keyBytes c.S len.toNat), ?_, fun j hj => ?_⟩
    · rw [exec_of_lt _ (State.cur_lt hc)]
      exact congrArg _ (State.updInst_congr hc (c.after_nextw h1 h4 hs))
    · rw [packLanes_lane _ hj, keyBytes_getD]

end Sys2Proof.Machine

namespace Sys2Proof.Machine

/-! ### Transactions on one port (40_generator.md R61) -/

theorem decode_seedWord (z : Int) : decode (seedWord z) = .seed 0 (norm32 z) := by
  have hw : (seedWord z).toNat = 2 ^ 36 + (norm32 z).toNat := by simp [seedWord, encode_toNat]
  have hop : opField (seedWord z) = 1 := by
    rw [← BitVec.toNat_inj, opField_toNat, hw]
    bv_omega
  have hlen : lenField (seedWord z) = 0 := by
    rw [← BitVec.toNat_inj, lenField_toNat, hw]
    bv_omega
  have hdata : dataField (seedWord z) = norm32 z := by
    rw [← BitVec.toNat_inj, dataField_toNat, hw]
    bv_omega
  rw [decode_of_opField_one hop, hlen, hdata]

/-- One transaction on a port with empty channels executes its word; the response taken is what the command added. -/
theorem State.transact_framed {s : State} {p : Nat} {c : CoreInst} (w : Word40) (hd : s.rspDepth ≠ some 0)
    (hc : s.insts[p]? = some c) (hcmds : c.cmds = []) (hrsps : c.rsps = []) :
    ∃ r c', s.transact p w = some (r, { s.updInst p (fun _ => c') with cur := p }) ∧
      c'.cmds = [] ∧ c'.rsps = [] ∧ c'.framed [r] [] = c.after (decode w) := by
  obtain ⟨r, hr, ht⟩ := State.transact_eq w hd hc hcmds hrsps
  obtain ⟨-, -, hcmds'⟩ := CoreInst.after_responds (decode w) c
  refine ⟨r, _, ht, rfl, rfl, ?_⟩
  rw [hcmds] at hcmds'
  show { c.after (decode w) with cmds := [], rsps := [r] } = c.after (decode w)
  rw [← hr, ← hcmds']

theorem State.transactAll_onPort_cons {s s₁ : State} {p : Nat} {w r : Word40} (h : s.transact p w = some (r, s₁))
    (ws : List Word40) :
    s.transactAll (onPort p (w :: ws)) = (s₁.transactAll (onPort p ws)).map fun (rs, t) => (r :: rs, t) := by
  rw [onPort, List.map_cons, State.transactAll, h]
  rfl

/-- Transactions on one port with empty channels execute its words in order, and the rest of the core is left as it is. -/
theorem State.transactAll_onPort {s : State} {p : Nat} {c : CoreInst} (w : Word40) (ws : List Word40)
    (hd : s.rspDepth ≠ some 0) (hc : s.insts[p]? = some c) (hcmds : c.cmds = []) (hrsps : c.rsps = []) :
    ∃ rs c', s.transactAll (onPort p (w :: ws)) = some (rs, { s.updInst p (fun _ => c') with cur := p }) ∧
      c'.cmds = [] ∧ c'.rsps = [] ∧ c'.framed rs [] = c.executes (w :: ws) := by
  induction ws generalizing s c w with
  | nil =>
    obtain ⟨r, c', ht, hcmds', hrsps', hframed⟩ := State.transact_framed w hd hc hcmds hrsps
    exact ⟨[r], c', State.transactAll_onPort_cons ht [], hcmds', hrsps', hframed⟩
  | cons v ws ih =>
    obtain ⟨r, c₁, ht, hcmds₁, hrsps₁, hframed₁⟩ := State.transact_framed w hd hc hcmds hrsps
    have hc₁ : (s.updInst p fun _ => c₁).insts[p]? = some c₁ := by rw [State.updInst_same, hc]; rfl
    obtain ⟨rs, c', hall, hcmds', hrsps', hframed⟩ :=
      ih (s := { s.updInst p (fun _ => c₁) with cur := p }) v hd hc₁ hcmds₁ hrsps₁
    refine ⟨r :: rs, c', ?_, hcmds', hrsps', ?_⟩
    · have htwice : (s.updInst p fun _ => c₁).updInst p (fun _ => c') = s.updInst p fun _ => c' :=
        s.updInst_updInst p _ _
      rw [State.transactAll_onPort_cons ht, hall, ← htwice]
      rfl
    · calc c'.framed (r :: rs) []
          = (c'.framed rs []).framed [r] [] := (c'.framed_framed rs [r] [] []).symm
        _ = (c₁.framed [r] []).executes (v :: ws) := by rw [hframed, CoreInst.executes_framed]
        _ = c.executes (w :: v :: ws) := by rw [hframed₁]; rfl

/-- Settles O49: the `SEED` leaves both ports the same, and from there each runs the same words. -/
theorem responsesAfterSeedDependOnTheSeedOnly : Obligations.ResponsesAfterSeedDependOnTheSeedOnly := by
  intro s₁ s₂ p₁ p₂ z ws ⟨_, hd₁⟩ ⟨_, hd₂⟩ ⟨c₁, hc₁, hcmds₁, hrsps₁⟩ ⟨c₂, hc₂, hcmds₂, hrsps₂⟩
  obtain ⟨rs₁, d₁, ht₁, hdc₁, hdr₁, h₁⟩ := State.transactAll_onPort (seedWord z) ws hd₁ hc₁ hcmds₁ hrsps₁
  obtain ⟨rs₂, d₂, ht₂, hdc₂, hdr₂, h₂⟩ := State.transactAll_onPort (seedWord z) ws hd₂ hc₂ hcmds₂ hrsps₂
  have hseed : c₁.executes (seedWord z :: ws) = c₂.executes (seedWord z :: ws) := by
    simp only [CoreInst.executes_cons, decode_seedWord, CoreInst.after_seed, hcmds₁, hcmds₂, hrsps₁, hrsps₂]
  obtain ⟨rfl, rfl⟩ := CoreInst.framed_inj_of_empty hdc₁ hdr₁ hdc₂ hdr₂ (h₁.trans (hseed.trans h₂.symm))
  refine ⟨rs₁, _, _, ht₁, ht₂, ?_⟩
  simp [hc₁, hc₂]

end Sys2Proof.Machine

namespace Sys2Proof.Machine

/-! ### `XORB` (41_cipher.md R73) -/

theorem CoreInst.after_xorb (d8 : Byte) (c : CoreInst) (hs : c.seeded = true) :
    c.after (.xorb 0 d8) =
      { S := lcg c.S, seeded := true, cmds := c.cmds,
        rsps := c.rsps ++ [rspWord 0 1 (zext32 (d8 ^^^ lowByte (lcg c.S)))] } := by
  obtain ⟨S, seeded, cmds, rsps⟩ := c
  subst hs
  rfl

/-- Settles O15, by `CoreInst.after_xorb` and the lemmas on faults: only the response holds the data byte. -/
theorem xorbXorsOneByte : Obligations.XorbXorsOneByte := by
  refine ⟨fun w hw => by simp [decode, hw], fun s c rsv d8 hc => ⟨?_, fun hrsv => ?_, ?_⟩⟩
  · rintro rfl hs
    rw [exec_of_lt _ (State.cur_lt hc), ← lowByte_eq_setWidth, ← rspWord_one_byte]
    exact congrArg _ (State.updInst_congr hc (c.after_xorb d8 hs))
  · exact exec_rejected (State.cur_lt hc) (i := .xorb rsv d8) (reservedRejection_of_ne hrsv)
  · rintro rfl hs
    exact exec_unseeded hc (fun _ _ => nofun) rfl hs

/-! ### The XOR of byte sequences (41_cipher.md R70, R72) -/

/-- XOR with the data again gives the keystream back. -/
theorem xorBytes_xorBytes_cancel {ds ks : List Byte} (h : ds.length = ks.length) :
    xorBytes (xorBytes ds ks) ds = ks := by
  apply List.ext_getElem
  · simp [xorBytes, h]
  · intro j _ _
    simp only [xorBytes, List.getElem_zipWith, xor_xor_cancel_comm]

/-- Two sequences under one keystream: it drops out of their XOR. -/
theorem xorBytes_xorBytes_same_key {ps qs ks : List Byte} (hp : ps.length = ks.length) (hq : qs.length = ks.length) :
    xorBytes (xorBytes ps ks) (xorBytes qs ks) = xorBytes ps qs := by
  apply List.ext_getElem
  · simp [xorBytes, hp, hq]
  · intro j _ _
    simp only [xorBytes, List.getElem_zipWith, BitVec.xor_assoc, xor_xor_cancel_comm_assoc]

/-! ### `XORW` (41_cipher.md R74) -/

theorem laneByte_toNat (d : Data) (j : Nat) : (laneByte d j).toNat = d.toNat / 2 ^ (8 * j) % 256 := by
  rw [laneByte, BitVec.extractLsb'_toNat, Nat.shiftRight_eq_div_pow]

@[simp] theorem lanes_length (n : Nat) (d : Data) : (lanes n d).length = n := by simp [lanes]

/-- Zero data is the raw keystream (41_cipher.md R72). -/
theorem xorBytes_lanes_zero {n : Nat} {ks : List Byte} (h : ks.length = n) : xorBytes (lanes n 0) ks = ks := by
  apply List.ext_getElem
  · simp [xorBytes, h]
  · intro j _ _
    simp [xorBytes, lanes, laneByte]

theorem lanes_one_zext32 (b : Byte) : lanes 1 (zext32 b) = [b] := by
  have hb : laneByte (zext32 b) 0 = b := by
    rw [← BitVec.toNat_inj, laneByte_toNat, zext32, BitVec.toNat_setWidth_of_le (by decide)]
    bv_omega
  rw [lanes, List.range_one, List.map_singleton, hb]

/-- Byte `j` of the data lanes XOR the keystream, and 0 past the last. -/
theorem xorBytes_lanes_keyBytes_getD (data S : Data) (n j : Nat) :
    ((xorBytes (lanes n data) (keyBytes S n)).getD j 0).toNat =
      if j < n then data.toNat / 2 ^ (8 * j) % 256 ^^^ (lcg^[j + 1] S).toNat % 256 else 0 := by
  split
  next h => simp [xorBytes, lanes, keyBytes, h, laneByte_toNat, lowByte_toNat]
  next h => simp [xorBytes, h]

theorem rejection_xorw_eq_none_iff {len : Nibble} {data : Data} :
    rejection (.xorw len data) = none ↔
      (1 ≤ len.toNat ∧ len.toNat ≤ 4) ∧ data.toNat / 2 ^ (8 * len.toNat) = 0 := by
  rw [rejection, Option.or_eq_none_iff, lengthRejection_none, reservedRejection_eq_none_iff, xorwReserved_eq_zero_iff]

theorem CoreInst.after_xorw {len : Nibble} {data : Data} (hr : rejection (.xorw len data) = none) (c : CoreInst)
    (hs : c.seeded = true) :
    c.after (.xorw len data) =
      { S := lcg^[len.toNat] c.S, seeded := true, cmds := c.cmds,
        rsps := c.rsps ++ [rspWord 0 len (packLanes (xorBytes (lanes len.toNat data) (keyBytes c.S len.toNat)))] } := by
  have hf : drawFault (.xorw len data) c.seeded = none := by
    rw [drawFault, hr, hs]
    rfl
  rw [CoreInst.after, CoreInst.xorw, hf]
  simp only [CoreInst.attempt, CoreInst.draws_eq, CoreInst.respond, hs]
  rfl

/-- `XORW 1, d` is `XORB d` (41_cipher.md R74). -/
theorem exec_xorw_one_eq_xorb (d : Byte) (s : State) : exec (.xorw 1 (zext32 d)) s = exec (.xorb 0 d) s := by
  have hr : rejection (.xorw 1 (zext32 d)) = rejection (.xorb 0 d) := by
    refine rejection_xorw_eq_none_iff.mpr ⟨by decide, ?_⟩
    rw [zext32, BitVec.toNat_setWidth_of_le (by decide)]
    exact Nat.div_eq_of_lt d.isLt
  have hpack (b : Byte) : packLanes [b] = zext32 b := BitVec.or_zero
  have h : CoreInst.xorw 1 (zext32 d) = CoreInst.xorb 0 d := by
    funext c
    have hl : lanes (1 : Nibble).toNat (zext32 d) = [d] := lanes_one_zext32 d
    simp only [CoreInst.xorw, CoreInst.xorb, drawFault, hr, hl]
    simp only [← hpack]
    rfl
  exact congrArg s.onCur h

/-- Settles O17, by `CoreInst.after_xorw`, `packLanes_lane` and the lemmas on faults. -/
theorem xorwXorsItsLanes : Obligations.XorwXorsItsLanes := by
  refine ⟨fun w hw => by simp [decode, hw], fun s c len data hc =>
    ⟨fun hlen => ?_, fun h1 h4 hdata => ?_, fun h1 h4 hdata hs => ?_, fun h1 h4 hdata hs => ?_,
      fun d => exec_xorw_one_eq_xorb d s⟩⟩
  · refine exec_rejected (State.cur_lt hc) (f := .badLength) ?_
    rw [rejection, lengthRejection_eq_badLength hlen]
    rfl
  · refine exec_rejected (State.cur_lt hc) (f := .reservedNonzero) ?_
    rw [rejection, lengthRejection_none.mpr ⟨h1, h4⟩,
      reservedRejection_of_ne (mt xorwReserved_eq_zero_iff.mp hdata)]
    rfl
  · exact exec_unseeded hc (fun _ _ => nofun) (rejection_xorw_eq_none_iff.mpr ⟨⟨h1, h4⟩, hdata⟩) hs
  · have hr := rejection_xorw_eq_none_iff.mpr ⟨⟨h1, h4⟩, hdata⟩
    refine ⟨packLanes (xorBytes (lanes len.toNat data) (keyBytes c.S len.toNat)), ?_, fun j hj => ?_⟩
    · rw [exec_of_lt _ (State.cur_lt hc)]
      exact congrArg _ (State.updInst_congr hc (c.after_xorw hr hs))
    · rw [packLanes_lane _ hj, xorBytes_lanes_keyBytes_getD]

/-! ### Zero data and the block operations (41_cipher.md R72) -/

/-- `XORW` with zero data is `NEXTW`, whatever the length: zero data sets no reserved bit. -/
theorem exec_xorw_zero_eq_nextw (len : Nibble) (s : State) : exec (.xorw len 0) s = exec (.nextw len 0) s := by
  have hr : rejection (.xorw len 0) = rejection (.nextw len 0) := by
    rw [rejection, rejection, xorwReserved, BitVec.ofNat_eq_ofNat, BitVec.zero_ushiftRight]
  have hx (c : CoreInst) : xorBytes (lanes len.toNat 0) (c.draws len.toNat).1 = (c.draws len.toNat).1 :=
    xorBytes_lanes_zero (by simp [CoreInst.draws_eq])
  have h : CoreInst.xorw len 0 = CoreInst.nextw len 0 := by
    funext c
    simp only [CoreInst.xorw, CoreInst.nextw, drawFault, hr, hx]
  exact congrArg s.onCur h

@[simp] theorem KS_length (z : Int) (n : Nat) : (KS z n).length = n := by simp [KS]

/-- Settles O27: byte by byte for the laws, command by command for zero data, and by cancellation for the ciphertexts. -/
theorem xorWithTheKeystreamCancels : Obligations.XorWithTheKeystreamCancels := by
  refine ⟨fun d k => ⟨xor_cancel_right d k, BitVec.xor_zero, BitVec.zero_xor, BitVec.xor_comm d k, BitVec.xor_self⟩,
    fun s => ⟨(exec_next_eq_xorb s).symm, fun len => exec_xorw_zero_eq_nextw len s⟩, fun z P => ?_,
    fun z P Q hPQ => ?_⟩
  · exact xorBytes_xorBytes_cancel (KS_length z P.length).symm
  · rw [encrypt, encrypt, ← hPQ]
    exact xorBytes_xorBytes_same_key (by simp) (by simp [hPQ])

end Sys2Proof.Machine

namespace Sys2Proof.Machine

/-! ### The words of the draw commands (30_encoding.md R45, R52) -/

theorem decode_xorbWord (d : Byte) : decode (xorbWord d) = .xorb 0 d := by
  have hop : opField (xorbWord d) = 3 :=
    BitVec.eq_of_toNat_eq (List.mem_singleton.mp (Laws.EncodedOpcode.xorb 0 d))
  have hrsv : (xorbWord d).extractLsb' 8 28 = 0 := by
    rw [← BitVec.toNat_inj, extractLsb'_toNat_div, xorbWord, encode_toNat]
    bv_omega
  have hd : (xorbWord d).extractLsb' 0 8 = d := by
    rw [← BitVec.toNat_inj, extractLsb'_toNat_div, xorbWord, encode_toNat]
    bv_omega
  simp [decode, hop, hrsv, hd]

/-! A wide command word has the layout of a response word, its opcode where the status stands (30_encoding.md R43, R44). -/

theorem decode_encode_nextw (len : Nibble) (rsv : Data) : decode (encode (.nextw len rsv)) = .nextw len rsv := by
  have hop : opField (encode (.nextw len rsv)) = 4 := rspStatus_rspWord 4 len rsv
  have hlen : lenField (encode (.nextw len rsv)) = len := rspLen_rspWord 4 len rsv
  have hrsv : dataField (encode (.nextw len rsv)) = rsv := rspData_rspWord 4 len rsv
  simp [decode, hop, hlen, hrsv]

theorem decode_encode_xorw (len : Nibble) (data : Data) : decode (encode (.xorw len data)) = .xorw len data := by
  have hop : opField (encode (.xorw len data)) = 5 := rspStatus_rspWord 5 len data
  have hlen : lenField (encode (.xorw len data)) = len := rspLen_rspWord 5 len data
  have hdata : dataField (encode (.xorw len data)) = data := rspData_rspWord 5 len data
  simp [decode, hop, hlen, hdata]

/-! ### Packed lanes read back (20_memory.md R32) -/

theorem packLanes_lt (bs : List Byte) : (packLanes bs).toNat < 2 ^ (8 * bs.length) := by
  induction bs with
  | nil => decide
  | cons b bs ih =>
    have hb : b.toNat < 2 ^ 8 := b.isLt
    rw [packLanes_cons_toNat, List.length_cons, Nat.mul_succ, Nat.pow_add]
    omega

theorem lanes_packLanes {bs : List Byte} (h : bs.length ≤ 4) : lanes bs.length (packLanes bs) = bs := by
  apply List.ext_getElem (lanes_length _ _)
  intro j _ hj
  have hlane : laneByte (packLanes bs) j = bs.getD j 0 := by
    rw [← BitVec.toNat_inj, laneByte_toNat, packLanes_lane bs (hj.trans_le h)]
  simp [lanes, hlane, hj]

theorem ofNat_toNat_of_le_four {n : Nat} (h : n ≤ 4) : (BitVec.ofNat 4 n).toNat = n := by
  rw [BitVec.toNat_ofNat]
  omega

@[simp] theorem xorBytes_length (ds ks : List Byte) : (xorBytes ds ks).length = min ds.length ks.length :=
  List.length_zipWith

theorem xorBytes_zeros {n : Nat} {ks : List Byte} (h : ks.length = n) : xorBytes (List.replicate n 0) ks = ks := by
  apply List.ext_getElem
  · simp [h]
  · intro j _ _
    simp [xorBytes]

theorem xorBytes_append {ds ks : List Byte} (h : ds.length = ks.length) (ds' ks' : List Byte) :
    xorBytes (ds ++ ds') (ks ++ ks') = xorBytes ds ks ++ xorBytes ds' ks' :=
  List.zipWith_append h

theorem keyBytes_add (S : Data) (m n : Nat) : keyBytes S (m + n) = keyBytes S m ++ keyBytes (lcg^[m] S) n := by
  rw [keyBytes, List.range_add, List.map_append, List.map_map]
  refine congrArg _ (List.map_congr_left fun j _ => ?_)
  rw [← Function.iterate_add_apply, Function.comp_apply, Nat.add_assoc, Nat.add_comm m]

/-! ### What a word carries (42_block_operations.md R84) -/

/-- Wherever `SEEDED = 1` the word draws once for each of `ds`, the data bytes it carries, and answers them XOR the bytes
drawn. -/
def Carries (w : Word40) (ds : List Byte) : Prop :=
  ds.length ≤ 4 ∧ ∀ c : CoreInst, c.seeded = true → c.after (decode w) = c.drawn (BitVec.ofNat 4 ds.length) ds

/-- Every legal word that is no `SEED` carries some bytes. -/
theorem exists_carries_of_legal {w : Word40} (hw : IsDraw (decode w)) (hr : rejection (decode w) = none) :
    ∃ ds, Carries w ds := by
  obtain ⟨len, ds, -, h4, hlen, h⟩ := CoreInst.drawn_of_legal hw hr
  refine ⟨ds, hlen ▸ h4, fun c hs => ?_⟩
  rw [h, drawFault, hr, hs, hlen, BitVec.ofNat_toNat, BitVec.setWidth_eq]
  rfl

theorem carries_xorbWord (d : Byte) : Carries (xorbWord d) [d] := by
  refine ⟨by simp, fun c hs => ?_⟩
  have hpack (b : Byte) : zext32 b = packLanes [b] := BitVec.or_zero.symm
  rw [decode_xorbWord, CoreInst.after_xorb d c hs, hpack, ← hs]
  rfl

/-- `NEXT` is `XORB 0` (40_generator.md R68). -/
theorem carries_nextWord : Carries nextWord [0] := by
  have hnext : decode nextWord = .next 0 := by decide
  have hzero (k : Byte) : 0 ^^^ k = k := BitVec.zero_xor
  obtain ⟨-, hxorb⟩ := carries_xorbWord 0
  refine ⟨by simp, fun c hs => ?_⟩
  rw [← hxorb c hs, hnext, decode_xorbWord, CoreInst.after_next c hs, CoreInst.after_xorb 0 c hs, hzero]

theorem carries_nextwWord {n : Nat} (h1 : 1 ≤ n) (h4 : n ≤ 4) : Carries (nextwWord n) (List.replicate n 0) := by
  have hn := ofNat_toNat_of_le_four h4
  refine ⟨by simpa using h4, fun c hs => ?_⟩
  rw [nextwWord, decode_encode_nextw, List.length_replicate]
  rw [← hn] at h1 h4
  rw [CoreInst.after_nextw h1 h4 c hs, CoreInst.drawn, hn, xorBytes_zeros (keyBytes_length _ _), ← hs]
  rfl

theorem carries_xorwWord {ds : List Byte} (h1 : 1 ≤ ds.length) (h4 : ds.length ≤ 4) : Carries (xorwWord ds) ds := by
  have hn := ofNat_toNat_of_le_four h4
  refine ⟨h4, fun c hs => ?_⟩
  have hr : rejection (.xorw (BitVec.ofNat 4 ds.length) (packLanes ds)) = none := by
    rw [rejection_xorw_eq_none_iff, hn]
    exact ⟨⟨h1, h4⟩, Nat.div_eq_of_lt (packLanes_lt ds)⟩
  rw [xorwWord, decode_encode_xorw, CoreInst.after_xorw hr c hs, CoreInst.drawn, hn, lanes_packLanes h4, ← hs]
  rfl

theorem DrawCmd.carries_word {d : DrawCmd} (h : d.ok = true) : Carries d.word d.carried := by
  cases d with
  | next => exact carries_nextWord
  | xorb d => exact carries_xorbWord d
  | nextw n =>
    simp only [DrawCmd.ok, Bool.and_eq_true, decide_eq_true_eq] at h
    exact carries_nextwWord h.1 h.2
  | xorw ds =>
    simp only [DrawCmd.ok, Bool.and_eq_true, decide_eq_true_eq] at h
    exact carries_xorwWord h.1 h.2

/-! ### A block operation on one port (42_block_operations.md R81, R82, R84) -/

/-- The bytes of the response to a draw: as many valid lanes as bytes, read back in order. -/
theorem rspBytes_rspWord_packLanes {bs : List Byte} (h : bs.length ≤ 4) (st : Nibble) :
    rspBytes (rspWord st (BitVec.ofNat 4 bs.length) (packLanes bs)) = bs := by
  rw [rspBytes, rspLen_rspWord, rspData_rspWord, ofNat_toNat_of_le_four h, lanes_packLanes h]

theorem rspOk_rspWord_zero (len : Nibble) (data : Data) : rspOk (rspWord 0 len data) = true := by
  rw [rspOk, rspStatus_rspWord]
  rfl

/-- Words that carry the bytes `dss.flatten`, executed where `SEEDED = 1`: the draws run through the states from `S` on,
whatever the split, and no response is a fault. -/
theorem CoreInst.executes_carried {ws : List Word40} {dss : List (List Byte)} (h : List.Forall₂ Carries ws dss)
    (c : CoreInst) (hs : c.seeded = true) :
    ∃ rs, c.executes ws = { c with S := lcg^[dss.flatten.length] c.S, rsps := c.rsps ++ rs } ∧ noFaultSeen rs = true ∧
      validBytes rs = xorBytes dss.flatten (keyBytes c.S dss.flatten.length) := by
  induction h generalizing c with
  | nil => exact ⟨[], by simp, rfl, rfl⟩
  | @cons w ds ws dss hw _ ih =>
    obtain ⟨h4, hafter⟩ := hw
    have hn := ofNat_toNat_of_le_four h4
    obtain ⟨rs, hrun, hok, hbytes⟩ := ih (c.drawn (BitVec.ofNat 4 ds.length) ds) hs
    rw [CoreInst.drawn_S, hn] at hrun hbytes
    have hlen : (xorBytes ds (keyBytes c.S ds.length)).length = ds.length := by simp
    have hfirst := rspBytes_rspWord_packLanes (hlen.trans_le h4) 0
    rw [hlen] at hfirst
    refine ⟨rspWord 0 (BitVec.ofNat 4 ds.length) (packLanes (xorBytes ds (keyBytes c.S ds.length))) :: rs, ?_, ?_, ?_⟩
    · rw [CoreInst.executes_cons, hafter c hs, hrun, ← Function.iterate_add_apply, List.flatten_cons, List.length_append,
        Nat.add_comm, CoreInst.drawn, hn]
      simp [CoreInst.respond]
    · rw [noFaultSeen, List.all_cons, rspOk_rspWord_zero]
      exact hok
    · rw [validBytes, List.flatMap_cons, hfirst, ← validBytes, hbytes, List.flatten_cons, List.length_append, keyBytes_add,
        xorBytes_append (keyBytes_length _ _).symm]

/-- One `SEED` and then words that carry bytes, run on a port with empty channels: the bytes come back XOR the keystream of
the seed, and nothing else has changed. -/
theorem State.transactAll_seed_carried {s : State} {p : Nat} {w : Word40} {imm : Data} {ws : List Word40}
    {dss : List (List Byte)} (hs : s.wf) (hp : s.drained p) (hw : decode w = .seed 0 imm)
    (h : List.Forall₂ Carries ws dss) :
    ∃ rs, s.transactAll (onPort p (w :: ws)) = some (rs, { s.updInst p (fun _ =>
        { S := lcg^[dss.flatten.length] imm, seeded := true, cmds := [], rsps := [] }) with cur := p }) ∧
      noFaultSeen rs = true ∧ validBytes rs = xorBytes dss.flatten (keyBytes imm dss.flatten.length) := by
  obtain ⟨-, hdepth⟩ := hs
  obtain ⟨c, hc, hcmds, hrsps⟩ := hp
  obtain ⟨rs, c', ht, hcmds', hrsps', hframed⟩ := State.transactAll_onPort w ws hdepth hc hcmds hrsps
  have hseeded : c.after (decode w) = { S := imm, seeded := true, cmds := [], rsps := [0#40] } := by
    rw [hw, CoreInst.after_seed, hcmds, hrsps]
    rfl
  obtain ⟨rs', hrun, hok, hbytes⟩ := CoreInst.executes_carried h (c.after (decode w)) (by rw [hseeded])
  rw [hseeded] at hrun hbytes
  rw [CoreInst.executes_cons, hseeded, hrun] at hframed
  obtain ⟨rfl, rfl⟩ := CoreInst.framed_inj_of_empty (rs' := 0#40 :: rs')
    (d := { S := lcg^[dss.flatten.length] imm, seeded := true, cmds := [], rsps := [] }) hcmds' hrsps' rfl rfl
    (hframed.trans (by simp [CoreInst.framed]))
  exact ⟨0#40 :: rs', ht, hok, hbytes⟩

theorem KS_eq_keyBytes (z : Int) (n : Nat) : KS z n = keyBytes (norm32 z) n := by
  refine List.map_congr_left fun i _ => ?_
  rw [keystream, stateSeq_eq]

/-- Settles O29: each draw command carries its bytes, so it is `State.transactAll_seed_carried`. -/
theorem everySplitDrawsTheSameStream : Obligations.EverySplitDrawsTheSameStream := by
  intro s p z ds hs hp hds
  have hcarries : List.Forall₂ Carries (ds.map DrawCmd.word) (ds.map DrawCmd.carried) := by
    rw [List.forall₂_map_left_iff, List.forall₂_map_right_iff, List.forall₂_same]
    exact fun d hd => DrawCmd.carries_word (hds d hd)
  rw [carriedBy, List.flatMap_def, stateSeq_eq, KS_eq_keyBytes]
  exact State.transactAll_seed_carried hs hp (decode_seedWord z) hcarries

/-! ### The assembled block operations (42_block_operations.md R81, R82, R85) -/

theorem keystreamWords_eq (z : Int) (n : Nat) : keystreamWords z n = splitWords z (List.replicate n .next) := by
  rw [keystreamWords, splitWords, List.map_replicate]
  rfl

theorem encryptWords_eq (z : Int) (P : List Byte) : encryptWords z P = splitWords z (P.map .xorb) := by
  rw [encryptWords, splitWords, List.map_map]
  rfl

theorem carriedBy_xorbs (P : List Byte) : carriedBy (P.map .xorb) = P := by
  rw [carriedBy, List.flatMap_map]
  exact List.flatMap_singleton' P

/-- Keystream commands carry zero bytes. -/
theorem carriedBy_keystream {ds : List DrawCmd} (h : ∀ d ∈ ds, d.isKeystream = true) :
    carriedBy ds = List.replicate (carriedBy ds).length 0 := by
  refine List.eq_replicate_of_mem fun b hb => ?_
  obtain ⟨d, hd, hbd⟩ := List.mem_flatMap.mp hb
  cases d with
  | next => exact List.mem_singleton.mp hbd
  | nextw n => exact List.eq_of_mem_replicate hbd
  | xorb _ => exact absurd (h _ hd) Bool.false_ne_true
  | xorw _ => exact absurd (h _ hd) Bool.false_ne_true

/-- Settles O30: a split that carries zero bytes returns the keystream, and the assembled words are the split into `NEXT`
alone. -/
theorem keystreamMacroReturnsTheKeystream : Obligations.KeystreamMacroReturnsTheKeystream := by
  intro s p z n hs hp
  have hsplit : ∀ ds : List DrawCmd, (∀ d ∈ ds, d.ok = true ∧ d.isKeystream = true) → (carriedBy ds).length = n →
      ∃ rs t, s.transactAll (onPort p (splitWords z ds)) = some (rs, t) ∧ validBytes rs = KS z n := by
    rintro ds hds rfl
    obtain ⟨rs, ht, -, hbytes⟩ := everySplitDrawsTheSameStream s p z ds hs hp fun d hd => (hds d hd).1
    rw [carriedBy_keystream fun d hd => (hds d hd).2, List.length_replicate, xorBytes_zeros (KS_length _ _)] at hbytes
    exact ⟨rs, _, ht, hbytes⟩
  obtain ⟨rs, t, ht, hbytes⟩ := hsplit (List.replicate n .next)
    (fun d hd => List.eq_of_mem_replicate hd ▸ ⟨rfl, rfl⟩) (by simp [carriedBy, DrawCmd.carried])
  exact ⟨⟨_, rs, t, rfl, keystreamWords_eq z n ▸ ht, hbytes⟩, hsplit⟩

theorem asmBytes_map_toNat (P : List Byte) : asmBytes (P.map BitVec.toNat) = some P := by
  induction P with
  | nil => rfl
  | cons b P ih =>
    have hb : asmByte b.toNat = some b := by
      rw [asmByte, if_pos (Nat.le_of_lt_succ b.isLt), BitVec.ofNat_toNat, BitVec.setWidth_eq]
    rw [List.map_cons, asmBytes, hb, ih]
    rfl

theorem ok_of_mem_xorbs {P : List Byte} {d : DrawCmd} (h : d ∈ P.map DrawCmd.xorb) :
    d.ok = true ∧ d.isKeystream = false := by
  obtain ⟨b, -, rfl⟩ := List.mem_map.mp h
  exact ⟨rfl, rfl⟩

/-- Settles O31: every split returns the ciphertext of the bytes it carries, and the assembled words are the split into
`XORB` alone. -/
theorem encryptMacroReturnsTheCiphertext : Obligations.EncryptMacroReturnsTheCiphertext := by
  intro s p z P hs hp
  have hsplit : ∀ ds : List DrawCmd, (∀ d ∈ ds, d.ok = true ∧ d.isKeystream = false) → carriedBy ds = P →
      ∃ rs t c, s.transactAll (onPort p (splitWords z ds)) = some (rs, t) ∧
        validBytes rs = encrypt z P ∧ t.insts[p]? = some c ∧ c.S = stateSeq z P.length := by
    rintro ds hds rfl
    obtain ⟨rs, ht, -, hbytes⟩ := everySplitDrawsTheSameStream s p z ds hs hp fun d hd => (hds d hd).1
    obtain ⟨c, hc, -⟩ := hp
    exact ⟨rs, _, _, ht, hbytes, by rw [State.updInst_same, hc]; rfl, rfl⟩
  obtain ⟨rs, t, c, ht, h⟩ := hsplit (P.map .xorb) (fun _ => ok_of_mem_xorbs) (carriedBy_xorbs P)
  exact ⟨⟨encryptWords z P, rs, t, c, by rw [assemble, asmBytes_map_toNat]; rfl, encryptWords_eq z P ▸ ht, h⟩, hsplit⟩

/-- The words of a block operation are those of a split (42_block_operations.md R81 to R83). -/
theorem exists_split_of_blockOperation {l : AsmLine} {ws : List Word40}
    (hl : (∃ z n, l = .keystream z n) ∨ (∃ z ps, l = .encrypt z ps) ∨ (∃ z cs, l = .decrypt z cs))
    (h : assemble l = some ws) : ∃ z ds, ws = splitWords z ds ∧ ∀ d ∈ ds, d.ok = true := by
  have hcipher {z : Int} {ps : List Nat} (h : (asmBytes ps).map (encryptWords z) = some ws) :
      ∃ z ds, ws = splitWords z ds ∧ ∀ d ∈ ds, d.ok = true := by
    obtain ⟨P, -, rfl⟩ := Option.map_eq_some_iff.mp h
    exact ⟨z, P.map .xorb, encryptWords_eq z P, fun _ hd => (ok_of_mem_xorbs hd).1⟩
  obtain ⟨z, n, rfl⟩ | ⟨z, ps, rfl⟩ | ⟨z, cs, rfl⟩ := hl
  · cases h
    exact ⟨z, List.replicate n .next, keystreamWords_eq z n, fun d hd => List.eq_of_mem_replicate hd ▸ rfl⟩
  · exact hcipher h
  · exact hcipher h

theorem isDraw_of_opField_ne_one {w : Word40} (h : opField w ≠ 1) : IsDraw (decode w) := by
  intro rsv imm hw
  rcases decode_cases w with ⟨-, e⟩ | ⟨h1, -⟩ | ⟨-, e⟩ | ⟨-, e⟩ | ⟨-, e⟩ | ⟨-, e⟩ | ⟨-, e⟩ | ⟨-, e⟩
  case inr.inl => exact h h1
  all_goals cases e.symm.trans hw

theorem exists_forall₂_carries {ws : List Word40} (h : ∀ w ∈ ws, opField w ≠ 1 ∧ rejection (decode w) = none) :
    ∃ dss, List.Forall₂ Carries ws dss := by
  induction ws with
  | nil => exact ⟨[], .nil⟩
  | cons w ws ih =>
    obtain ⟨⟨hop, hr⟩, hws⟩ := List.forall_mem_cons.mp h
    obtain ⟨ds, hds⟩ := exists_carries_of_legal (isDraw_of_opField_ne_one hop) hr
    obtain ⟨dss, hdss⟩ := ih hws
    exact ⟨ds :: dss, .cons hds hdss⟩

/-- A legal list of one `SEED` and draws, taken apart. -/
theorem legalBlock_cases {ws : List Word40} (hblock : isBlockStream ws = true) (hlegal : allLegal ws = true) :
    ∃ w ws' imm dss, ws = w :: ws' ∧ decode w = .seed 0 imm ∧ List.Forall₂ Carries ws' dss := by
  cases ws with
  | nil => cases hblock
  | cons w ws =>
    simp only [isBlockStream, allLegal, List.all_cons, Bool.and_eq_true, List.all_eq_true, decide_eq_true_eq,
      Option.isNone_iff_eq_none] at hblock hlegal
    obtain ⟨hseed, hdraws⟩ := hblock
    obtain ⟨hr, hrs⟩ := hlegal
    obtain ⟨dss, hdss⟩ := exists_forall₂_carries fun v hv => ⟨hdraws v hv, hrs v hv⟩
    have hw := decode_of_opField_one hseed
    rw [hw, rejection, reservedRejection_eq_none_iff] at hr
    rw [hr] at hw
    exact ⟨w, ws, dataField w, dss, rfl, hw, hdss⟩

/-- Settles O33: assembled words are a split, which runs without a fault; the words after the `SEED` of a legal list carry
bytes, and those draw without a fault. -/
theorem blockOperationsNeverFault : Obligations.BlockOperationsNeverFault := by
  refine ⟨fun s p l ws hs hp hl h => ?_, fun s p ws hs hp hblock hlegal => ?_⟩
  · obtain ⟨z, ds, rfl, hds⟩ := exists_split_of_blockOperation hl h
    obtain ⟨rs, ht, hok, -⟩ := everySplitDrawsTheSameStream s p z ds hs hp hds
    exact ⟨rs, _, ht, hok⟩
  · obtain ⟨w, ws', imm, dss, rfl, hw, hdss⟩ := legalBlock_cases hblock hlegal
    obtain ⟨rs, ht, hok, -⟩ := State.transactAll_seed_carried hs hp hw hdss
    exact ⟨rs, _, ht, hok⟩

end Sys2Proof.Machine

namespace Sys2Proof.Machine

/-! ### The block operations as functions (42_block_operations.md R88, R89, R91 to R94) -/

theorem KS_congr {z z' : Int} (h : z % 256 = z' % 256) (n : Nat) : KS z n = KS z' n := by
  cases n with
  | zero => rfl
  | succ n => exact (KS_eq_iff n.succ_pos).mpr h

theorem xorBytes_comm (ds ks : List Byte) : xorBytes ds ks = xorBytes ks ds :=
  List.zipWith_comm_of_comm BitVec.xor_comm

/-- Settles O34: seeds that agree modulo 256 have one keystream, and XOR with it twice cancels. -/
theorem decryptOfEncryptIsThePlaintext : Obligations.DecryptOfEncryptIsThePlaintext := by
  have hlen (z : Int) (P : List Byte) : (encrypt z P).length = P.length := by simp [encrypt]
  refine ⟨fun z₁ z₂ P hz => ?_, fun z P => ⟨hlen z P, hlen z P⟩⟩
  rw [decrypt, hlen, ← KS_congr hz, encrypt, xorBytes_comm P]
  exact xorBytes_xorBytes_cancel (KS_length z₁ P.length)

/-- A nonempty ciphertext tells the seeds apart exactly as its keystream does. -/
theorem encrypt_eq_encrypt_iff {z₁ z₂ : Int} {P : List Byte} (hP : P ≠ []) :
    encrypt z₁ P = encrypt z₂ P ↔ z₁ % 256 = z₂ % 256 := by
  have hkey (z : Int) : xorBytes (encrypt z P) P = KS z P.length :=
    xorBytes_xorBytes_cancel (KS_length z P.length).symm
  constructor
  · intro h
    refine (KS_eq_iff (List.length_pos_iff.mpr hP)).mp ?_
    rw [← hkey, ← hkey, h]
  · intro h
    rw [encrypt, encrypt, KS_congr h]

theorem count_seeds_agreeing (z : Int) : {n : Nat | n < 2 ^ 32 ∧ z % 256 = (n : Int) % 256}.ncard = 2 ^ 24 := by
  have hset : {n : Nat | n < 2 ^ 32 ∧ z % 256 = (n : Int) % 256} =
      ((Finset.range (2 ^ 32)).filter (· ≡ (z % 256).toNat [MOD 256]) : Finset Nat) := by
    ext n
    rw [Finset.mem_coe, Finset.mem_filter, Finset.mem_range, Nat.ModEq, Set.mem_ofPred_eq]
    omega
  rw [hset, Set.ncard_coe_finset, ← Nat.count_eq_card_filter_range, Nat.count_modEq_card _ (by decide)]
  simp

/-- Settles O36, by `encrypt_eq_encrypt_iff` and `count_seeds_agreeing`. -/
theorem ciphertextsAgreeExactlyModulo256 : Obligations.CiphertextsAgreeExactlyModulo256 := by
  refine ⟨fun z₁ z₂ P => encrypt_eq_encrypt_iff, by decide, by decide, fun P => ?_, fun z P hP => ?_⟩
  · rw [encrypt, encrypt, KS_congr (z := 1) (z' := 257) rfl]
  · simp only [encrypt_eq_encrypt_iff hP]
    exact count_seeds_agreeing z

/-- Settles O37: fixed values, and seeds at and above the modulus by `congruentSeedsHaveOneKeystream`. -/
theorem seedsOfTheRulesGiveTheirBytes : Obligations.SeedsOfTheRulesGiveTheirBytes := by
  have hks := congruentSeedsHaveOneKeystream.1
  refine ⟨by decide, ⟨by decide, by decide, by decide, by decide, by decide, by decide, by decide, by decide,
    fun n => ⟨?_, ?_, ?_⟩⟩, by decide⟩
  · exact hks (2 ^ 32) 0 (by decide) n
  · exact hks (2 ^ 32 + 42) 42 (by decide) n
  · exact hks (-1) (2 ^ 32 - 1) (by decide) n

end Sys2Proof.Machine

namespace Sys2Proof.Machine

/-! ### Which fault a command takes (60_exceptions.md R97 to R101) -/

theorem not_opIllegal_of_lenIllegal {w : Word40} (h : lenIllegal w) : ¬opIllegal w := by
  obtain ⟨hop, -⟩ := h
  unfold opIllegal
  omega

theorem not_opIllegal_of_reservedSet {w : Word40} (h : reservedSet w) : ¬opIllegal w := by
  rcases h with ⟨h, -⟩ | ⟨h, -⟩ | ⟨h, -⟩ | ⟨h, -⟩ | ⟨h, -⟩ <;> simp [opIllegal, h]

theorem rejection_eq_illegalOpcode_iff {w : Word40} : rejection (decode w) = some .illegalOpcode ↔ opIllegal w := by
  rw [rejection_decode]
  split_ifs with hop hlen hrsv
  · exact iff_of_true rfl hop
  · exact iff_of_false nofun hop
  · exact iff_of_false nofun hop
  · exact iff_of_false nofun hop

theorem rejection_eq_badLength_iff {w : Word40} : rejection (decode w) = some .badLength ↔ lenIllegal w := by
  rw [rejection_decode]
  split_ifs with hop hlen hrsv
  · exact iff_of_false nofun fun hlen => not_opIllegal_of_lenIllegal hlen hop
  · exact iff_of_true rfl hlen
  · exact iff_of_false nofun hlen
  · exact iff_of_false nofun hlen

theorem rejection_eq_reservedNonzero_iff {w : Word40} :
    rejection (decode w) = some .reservedNonzero ↔ ¬lenIllegal w ∧ reservedSet w := by
  rw [rejection_decode]
  split_ifs with hop hlen hrsv
  · exact iff_of_false nofun fun ⟨_, hrsv⟩ => not_opIllegal_of_reservedSet hrsv hop
  · exact iff_of_false nofun fun ⟨hnot, _⟩ => hnot hlen
  · exact iff_of_true rfl ⟨hlen, hrsv⟩
  · exact iff_of_false nofun fun ⟨_, h⟩ => hrsv h

theorem rejection_eq_none_iff {w : Word40} :
    rejection (decode w) = none ↔ ¬opIllegal w ∧ ¬lenIllegal w ∧ ¬reservedSet w := by
  rw [rejection_decode]
  split_ifs with hop hlen hrsv
  · exact iff_of_false nofun fun ⟨hnot, _, _⟩ => hnot hop
  · exact iff_of_false nofun fun ⟨_, hnot, _⟩ => hnot hlen
  · exact iff_of_false nofun fun ⟨_, _, hnot⟩ => hnot hrsv
  · exact iff_of_true rfl ⟨hop, hlen, hrsv⟩

/-- An encoding alone never raises `UNSEEDED`. -/
theorem rejection_ne_unseeded (w : Word40) : rejection (decode w) ≠ some .unseeded := by
  rw [rejection_decode]
  split_ifs <;> nofun

theorem statusOf_ne_zero (f : FaultCode) : statusOf f ≠ 0 := by
  cases f <;> decide

theorem statusOf_injective : Function.Injective statusOf := by
  intro f g
  cases f <;> cases g <;> decide

theorem status_eq_of_append_rspWord_eq {rs : List Word40} {st st' len len' : Nibble} {d d' : Data}
    (h : rs ++ [rspWord st len d] = rs ++ [rspWord st' len' d']) : st = st' := by
  have hst := congrArg rspStatus (List.singleton_inj.mp (List.append_cancel_left h))
  rwa [rspStatus_rspWord, rspStatus_rspWord] at hst

/-- A command takes the fault of its encoding; a legal draw takes `UNSEEDED` where `SEEDED = 0`; none takes another. -/
theorem CoreInst.after_eq_takeFault_iff {w : Word40} {c : CoreInst} {f : FaultCode} :
    c.after (decode w) = c.takeFault f ↔ rejection (decode w) = some f ∨
      (f = .unseeded ∧ rejection (decode w) = none ∧ opField w ≠ 1 ∧ c.seeded = false) := by
  constructor
  · intro h
    have hrsps := congrArg CoreInst.rsps h
    rcases CoreInst.after_cases (decode w) c with ⟨g, hr, ha⟩ | ⟨hr, hd, hs, ha⟩ | ⟨imm, -, ha⟩ |
      ⟨len, ds, -, -, -, -, -, -, ha⟩ <;> rw [ha] at hrsps
    · exact .inl (statusOf_injective (status_eq_of_append_rspWord_eq hrsps) ▸ hr)
    · exact .inr ⟨(statusOf_injective (status_eq_of_append_rspWord_eq hrsps)).symm, hr, opField_ne_one_of_isDraw hd, hs⟩
    · exact absurd (status_eq_of_append_rspWord_eq hrsps).symm (statusOf_ne_zero f)
    · exact absurd (status_eq_of_append_rspWord_eq hrsps).symm (statusOf_ne_zero f)
  · rintro (hr | ⟨rfl, hr, hop, hs⟩)
    · exact CoreInst.after_rejected hr c
    · exact CoreInst.after_unseeded (isDraw_of_opField_ne_one hop) hr hs

theorem exec_eq_answered_iff {s : State} {c : CoreInst} {i : Instr} (f : FaultCode) (hc : s.insts[s.cur]? = some c) :
    exec i s = .next (s.answered (rspWord (statusOf f) 0 0)) ↔ c.after i = c.takeFault f := by
  refine ⟨fun h => ?_, exec_eq_answered hc⟩
  obtain ⟨-, hs⟩ := exec_eq_next.mp h
  have hcur : (s.answered (rspWord (statusOf f) 0 0)).insts[s.cur]? = some (c.takeFault f) := by
    rw [State.answered, State.updInst_same, hc]
    rfl
  rw [hs, State.updInst_same, hc] at hcur
  exact Option.some.inj hcur

/-- A fault of the encoding is answered exactly by the words that have it, whatever `SEEDED`. -/
theorem exec_eq_answered_iff_rejection {s : State} {w : Word40} {f : FaultCode} (hs : s.wf) (hf : f ≠ .unseeded) :
    exec (decode w) s = .next (s.answered (rspWord (statusOf f) 0 0)) ↔ rejection (decode w) = some f := by
  obtain ⟨hcur, -⟩ := hs
  rw [exec_eq_answered_iff f (List.getElem?_eq_getElem hcur), CoreInst.after_eq_takeFault_iff]
  simp [hf]

/-- Settles O6, by `exec_eq_answered_iff_rejection`: the first check is the opcode alone. -/
theorem illegalOpcodeFaultExactly : Obligations.IllegalOpcodeFaultExactly := by
  intro s w hs
  have h : exec (decode w) s = .next (s.answered 0x1000000000#40) ↔ opIllegal w :=
    (exec_eq_answered_iff_rejection hs (f := .illegalOpcode) nofun).trans rejection_eq_illegalOpcode_iff
  exact ⟨h.mpr, mt h.mp⟩

/-- Settles O7, by `exec_eq_answered_iff_rejection`: a wide command has a legal opcode, so nothing fails before. -/
theorem badLengthFaultExactly : Obligations.BadLengthFaultExactly := by
  intro s w hs
  have h : exec (decode w) s = .next (s.answered 0x2000000000#40) ↔ lenIllegal w :=
    (exec_eq_answered_iff_rejection hs (f := .badLength) nofun).trans rejection_eq_badLength_iff
  exact ⟨h.mpr, mt h.mp⟩

/-- Settles O8, by `exec_eq_answered_iff_rejection`: only a word with a legal opcode has reserved bits. -/
theorem reservedNonzeroFaultExactly : Obligations.ReservedNonzeroFaultExactly := by
  intro s w hs
  have h : exec (decode w) s = .next (s.answered 0x3000000000#40) ↔ ¬lenIllegal w ∧ reservedSet w :=
    (exec_eq_answered_iff_rejection hs (f := .reservedNonzero) nofun).trans rejection_eq_reservedNonzero_iff
  exact ⟨h.mpr, mt h.mp⟩

/-- A command takes a fault, or its response has the status `OK`. -/
theorem CoreInst.after_takeFault_or_ok (i : Instr) (c : CoreInst) :
    (∃ f, c.after i = c.takeFault f) ∨ ∃ r, (c.after i).rsps = c.rsps ++ [r] ∧ rspStatus r = 0 := by
  rcases CoreInst.after_cases i c with ⟨f, -, ha⟩ | ⟨-, -, -, ha⟩ | ⟨imm, -, ha⟩ | ⟨len, ds, -, -, -, -, -, -, ha⟩
  · exact .inl ⟨f, ha⟩
  · exact .inl ⟨.unseeded, ha⟩
  · exact .inr ⟨_, by rw [ha]; rfl, rspStatus_rspWord 0 0 0⟩
  · exact .inr ⟨_, by rw [ha]; rfl, rspStatus_rspWord 0 len _⟩

theorem CoreInst.after_ok {w : Word40} {c : CoreInst} (hr : rejection (decode w) = none)
    (h : opField w = 1 ∨ c.seeded = true) :
    ∃ r, (c.after (decode w)).rsps = c.rsps ++ [r] ∧ rspStatus r = 0 := by
  refine (CoreInst.after_takeFault_or_ok (decode w) c).resolve_left fun ⟨f, hf⟩ => ?_
  rcases CoreInst.after_eq_takeFault_iff.mp hf with hr' | ⟨-, -, hop, hs⟩
  · cases hr.symm.trans hr'
  · exact absurd (h.resolve_left hop) (by simp [hs])

/-- Settles O10: the first three checks are those of `rejection`, which comes before `SEEDED`. -/
theorem firstFailingCheckDecidesTheFault : Obligations.FirstFailingCheckDecidesTheFault := by
  intro s c w hc
  have hcur := State.cur_lt hc
  refine ⟨fun hop => ?_, fun _ hlen => ?_, fun _ hlen hrsv => ?_, fun hop hlen hrsv hdraw hs => ?_,
    fun hop hlen hrsv h => ?_⟩
  · exact exec_rejected hcur (rejection_eq_illegalOpcode_iff.mpr hop)
  · exact exec_rejected hcur (rejection_eq_badLength_iff.mpr hlen)
  · exact exec_rejected hcur (rejection_eq_reservedNonzero_iff.mpr ⟨hlen, hrsv⟩)
  · exact exec_unseeded hc (isDraw_of_opField_ne_one hdraw) (rejection_eq_none_iff.mpr ⟨hop, hlen, hrsv⟩) hs
  · obtain ⟨r, hrsps, hok⟩ := CoreInst.after_ok (rejection_eq_none_iff.mpr ⟨hop, hlen, hrsv⟩) h
    exact ⟨_, _, r, exec_of_lt _ hcur, by rw [State.updInst_same, hc]; rfl, hrsps, hok⟩

/-! ### A fault in a step (60_exceptions.md R102) -/

theorem rspWord_zero_zero (st : Nibble) : rspWord st 0 0 = st ++ 0#36 := by
  rw [← BitVec.toNat_inj, rspWord_toNat, append_toNat]
  simp

/-- Settles O11: the step takes the word off and executes it, and a response that is not `OK` is that of a fault. -/
theorem faultingCommandChangesNothing : Obligations.FaultingCommandChangesNothing := by
  intro s t p c c' r hp hc hstep hc' hrsps hr
  rcases step_cases s with ⟨hidle, -⟩ | ⟨q, d, w, hq, -, -, hserved⟩
  · cases hidle.symm.trans hp
  · obtain rfl : q = p := Option.some.inj (hq.symm.trans hp)
    obtain rfl : s.served q w = t := Host.Outcome.next.inj (hserved.symm.trans hstep)
    rw [State.served_same, hc, Option.map_some] at hc'
    obtain rfl := Option.some.inj hc'
    have hlast {r' : Word40} (h : c.rsps ++ [r'] = c.rsps ++ [r]) : r' = r :=
      List.singleton_inj.mp (List.append_cancel_left h)
    rcases CoreInst.after_takeFault_or_ok (decode w) { c with cmds := c.cmds.tail } with ⟨f, hf⟩ | ⟨r', hr', hok⟩
    · rw [hf] at hrsps ⊢
      obtain rfl := hlast hrsps
      exact ⟨by rw [rspStatus_rspWord, rspWord_zero_zero], rfl, fun q' hq' => State.served_other s w hq'⟩
    · exact absurd (hlast (hr'.symm.trans hrsps) ▸ hok) hr

/-! ### A port that receives no command (60_exceptions.md R113) -/

/-- Settles O45: with no word to execute, a run only lets the responses be taken. -/
theorem idleInstanceKeepsItsState : Obligations.IdleInstanceKeepsItsState := by
  intro es s t os p c hes hnone hc hcmds hrun
  obtain ⟨c', hc', done, hwords, hdone⟩ := State.runEvents_progress hes hrun hc
  rw [hcmds, hnone, List.append_nil] at hwords
  obtain ⟨rfl, hcmds'⟩ := List.append_eq_nil_iff.mp hwords.symm
  exact ⟨c', hc', (congrArg CoreInst.S hdone).symm, (congrArg CoreInst.seeded hdone).symm, hcmds'⟩

end Sys2Proof.Machine

namespace Sys2Proof.Machine

/-! ### `SEEDED` after a command list (60_exceptions.md R100) -/

theorem rspWord_fields (w : Word40) : rspWord (opField w) (lenField w) (dataField w) = w := by
  rw [← BitVec.toNat_inj, rspWord_toNat, opField_toNat, lenField_toNat, dataField_toNat]
  omega

theorem decode_eq_seed_iff {w : Word40} {imm : Data} : decode w = .seed 0 imm ↔ encode (.seed 0 imm) = w := by
  constructor
  · intro h
    have hop : opField w = 1 := by
      by_contra hop
      exact isDraw_of_opField_ne_one hop 0 imm h
    rw [decode_of_opField_one hop] at h
    obtain ⟨hlen, hdata⟩ := Instr.seed.inj h
    rw [← rspWord_fields w, hop, hlen, hdata]
    rfl
  · rintro rfl
    have hop : opField (encode (.seed 0 imm)) = 1 := rspStatus_rspWord 1 0 imm
    have hlen : lenField (encode (.seed 0 imm)) = 0 := rspLen_rspWord 1 0 imm
    have hdata : dataField (encode (.seed 0 imm)) = imm := rspData_rspWord 1 0 imm
    rw [decode_of_opField_one hop, hlen, hdata]

@[simp] theorem CoreInst.takeFault_seeded (c : CoreInst) (f : FaultCode) : (c.takeFault f).seeded = c.seeded := rfl
@[simp] theorem CoreInst.drawn_seeded (c : CoreInst) (len : Nibble) (ds : List Byte) :
    (c.drawn len ds).seeded = c.seeded := rfl

/-- After a command `SEEDED` is 1 if it was before, or if the command is a legal `SEED`. -/
theorem CoreInst.after_seeded_iff {i : Instr} {c : CoreInst} :
    (c.after i).seeded = true ↔ c.seeded = true ∨ ∃ imm, i = .seed 0 imm := by
  rcases CoreInst.after_cases i c with ⟨f, hr, ha⟩ | ⟨-, hd, -, ha⟩ | ⟨imm, hi, ha⟩ | ⟨len, ds, -, -, hs, -, -, -, ha⟩
  · have hseed : ¬∃ imm, i = .seed 0 imm := by
      rintro ⟨imm, rfl⟩
      cases hr
    rw [ha, CoreInst.takeFault_seeded, or_iff_left hseed]
  · rw [ha, CoreInst.takeFault_seeded, or_iff_left fun ⟨imm, h⟩ => hd 0 imm h]
  · exact iff_of_true (by rw [ha]; rfl) (.inr ⟨imm, hi⟩)
  · exact iff_of_true (by rw [ha, CoreInst.drawn_seeded, hs]) (.inl hs)

theorem CoreInst.executes_seeded_iff {ws : List Word40} {c : CoreInst} :
    (c.executes ws).seeded = true ↔ c.seeded = true ∨ ∃ imm, encode (.seed 0 imm) ∈ ws := by
  induction ws generalizing c with
  | nil => simp
  | cons w ws ih =>
    rw [CoreInst.executes_cons, ih, CoreInst.after_seeded_iff, or_assoc, ← exists_or]
    simp only [decode_eq_seed_iff, List.mem_cons]

theorem State.coreReset_getElem? {s : State} {p : Nat} {c : CoreInst} (L : List Data) (hc : s.insts[p]? = some c) :
    (s.coreReset L).insts[p]? = some (CoreInst.reset (L.getD p c.S)) := by
  rw [State.coreReset, List.getElem?_mapIdx, hc]
  rfl

theorem step_length {s t : State} (h : step s = .next t) : t.insts.length = s.insts.length := by
  rcases step_cases s with ⟨-, hidle⟩ | ⟨q, d, w, -, -, -, hserved⟩
  · obtain rfl : s.idle = t := Host.Outcome.next.inj (hidle.symm.trans h)
    rfl
  · obtain rfl : s.served q w = t := Host.Outcome.next.inj (hserved.symm.trans h)
    exact State.updInst_length s q _

/-- A port that is not there answers nothing. -/
theorem State.transact_lt {s t : State} {p : Nat} {w r : Word40} (h : s.transact p w = some (r, t)) :
    p < s.insts.length := by
  obtain ⟨u, hu⟩ := step_total { s.present p w with sched := p :: (s.present p w).sched }
  simp only [State.transact, hu, Option.map_eq_some_iff] at h
  obtain ⟨r', hr', -⟩ := h
  obtain ⟨c, hc, -⟩ := Option.bind_eq_some_iff.mp hr'
  calc p < u.insts.length := (List.getElem?_eq_some_iff.mp hc).1
    _ = s.insts.length := (step_length hu).trans (State.updInst_length s p _)

/-- Transactions on one port make no port. -/
theorem State.transactAll_onPort_lt {s t : State} {p : Nat} {ws rs : List Word40} {c : CoreInst}
    (h : s.transactAll (onPort p ws) = some (rs, t)) (hc : t.insts[p]? = some c) : p < s.insts.length := by
  cases ws with
  | nil =>
    cases h
    exact (List.getElem?_eq_some_iff.mp hc).1
  | cons w ws =>
    rw [onPort, List.map_cons, State.transactAll] at h
    split at h
    · cases h
    next r s' ht => exact State.transact_lt ht

@[simp] theorem CoreInst.framed_seeded (c : CoreInst) (rs cmds : List Word40) :
    (c.framed rs cmds).seeded = c.seeded := rfl

/-- Transactions on one port with empty channels leave there what the words do, the responses taken put back. -/
theorem State.transactAll_executes {s t : State} {p : Nat} {ws rs : List Word40} {c c' : CoreInst}
    (hd : s.rspDepth ≠ some 0) (hc : s.insts[p]? = some c) (hcmds : c.cmds = []) (hrsps : c.rsps = [])
    (h : s.transactAll (onPort p ws) = some (rs, t)) (hc' : t.insts[p]? = some c') :
    c'.framed rs [] = c.executes ws := by
  cases ws with
  | nil =>
    cases h
    obtain rfl : c = c' := Option.some.inj (hc.symm.trans hc')
    exact congrArg (c.framed []) hcmds.symm
  | cons w ws =>
    obtain ⟨rs', d, ht, -, -, hd⟩ := State.transactAll_onPort w ws hd hc hcmds hrsps
    cases h.symm.trans ht
    obtain rfl : d = c' := by simpa [hc] using hc'
    exact hd

/-- Settles O9: `UNSEEDED` comes after the checks on the encoding; and from a reset the words of the list are executed in
order, of which only a legal `SEED` sets `SEEDED`. -/
theorem unseededFaultExactly : Obligations.UnseededFaultExactly := by
  refine ⟨fun s c w hc => ?_, fun s t L p ws rs c hs ht hc => ?_⟩
  · have h : exec (decode w) s = .next (s.answered 0x4000000000#40) ↔
        (decode w).wf = true ∧ opField w ≠ 1 ∧ c.seeded = false := by
      rw [← rejection_eq_none_iff_wf]
      refine (exec_eq_answered_iff .unseeded hc).trans (CoreInst.after_eq_takeFault_iff.trans ?_)
      rw [or_iff_right (rejection_ne_unseeded w), eq_self, true_and]
    exact ⟨h.mpr, mt h.mp⟩
  · obtain ⟨-, hdepth⟩ := hs
    have hp := State.transactAll_onPort_lt ht hc
    rw [State.coreReset_length] at hp
    have hreset := State.coreReset_getElem? L (List.getElem?_eq_getElem hp)
    have hexec := State.transactAll_executes (s := s.coreReset L) hdepth hreset rfl rfl ht hc
    rw [← CoreInst.framed_seeded c rs [], hexec, CoreInst.executes_seeded_iff, or_iff_right (by simp [CoreInst.reset])]

end Sys2Proof.Machine

namespace Sys2Proof.Machine

/-! ### The transcribed step function (60_exceptions.md R106) -/

theorem sliceNat_opField (w : Word40) : sliceNat w.toNat 36 4 = (opField w).toNat := by
  rw [sliceNat, opField_toNat]
  omega

theorem sliceNat_lenField (w : Word40) : sliceNat w.toNat 32 4 = (lenField w).toNat := (lenField_toNat w).symm

theorem sliceNat_dataField (w : Word40) : sliceNat w.toNat 0 32 = (dataField w).toNat := by
  rw [sliceNat, dataField_toNat, Nat.pow_zero, Nat.div_one]

theorem refRsp_toNat (st len : Nibble) (d : Data) :
    refRsp st.toNat len.toNat d.toNat = (rspWord st len d).toNat := (rspWord_toNat st len d).symm

/-- The number of draws of a legal draw word (60_exceptions.md R106). -/
def drawCount (w : Word40) : Nat := if opField w = 2 ∨ opField w = 3 then 1 else (lenField w).toNat

/-- The reserved bits of the transcription are those of the word's format. -/
theorem refReserved_ne_zero_iff {w : Word40} (hop : ¬opIllegal w) :
    refReserved (opField w).toNat (lenField w).toNat (dataField w).toNat ≠ 0 ↔ reservedSet w := by
  have hl := lenField_toNat w
  have hd := dataField_toNat w
  rcases decode_cases w with ⟨h, -⟩ | ⟨h, -⟩ | ⟨h, -⟩ | ⟨h, -⟩ | ⟨h, -⟩ | ⟨h, -⟩ | ⟨h, -⟩ | ⟨h, -⟩
  · exact absurd (.inl (congrArg BitVec.toNat h)) hop
  · simp [refReserved, reservedSet, h, ← BitVec.toNat_inj]
  · have hrsv : (lenField w).toNat * 2 ^ 32 + (dataField w).toNat = w.toNat % 2 ^ 36 := by omega
    simp only [refReserved, reservedSet, h, hrsv]
    simp
  · have hrsv : (lenField w).toNat * 2 ^ 24 + (dataField w).toNat / 2 ^ 8 % 2 ^ 24 = w.toNat % 2 ^ 36 / 2 ^ 8 := by
      omega
    simp only [refReserved, reservedSet, sliceNat, h, hrsv]
    simp
  · simp [refReserved, reservedSet, h, ← BitVec.toNat_inj]
  · by_cases h4 : (lenField w).toNat = 4
    · have hlt : (dataField w).toNat < 4294967296 := (dataField w).isLt
      simp [refReserved, reservedSet, h, h4, hlt]
    · simp [refReserved, reservedSet, h, h4]
  · exact absurd (.inr (by rcases h with h | h <;> rw [h] <;> decide)) hop
  · exact absurd (.inr (by omega)) hop

/-- The transcription on a word, in the word's own fields. -/
theorem refStep_fields (S : Nat) (seeded : Bool) (w : Word40) : refStep S seeded w.toNat =
    if opIllegal w then (S, seeded, refRsp 1 0 0)
    else if lenIllegal w then (S, seeded, refRsp 2 0 0)
    else if refReserved (opField w).toNat (lenField w).toNat (dataField w).toNat ≠ 0 then (S, seeded, refRsp 3 0 0)
    else if opField w = 1 then ((dataField w).toNat, true, refRsp 0 0 0)
    else if seeded = false then (S, seeded, refRsp 4 0 0)
    else ((refLoop (dataField w).toNat (drawCount w) 0 S 0).1, true,
      refRsp 0 (drawCount w) (refLoop (dataField w).toNat (drawCount w) 0 S 0).2) := by
  simp only [refStep, sliceNat_opField, sliceNat_lenField, sliceNat_dataField, drawCount, ← BitVec.toNat_inj]
  rfl

theorem refStep_rejected {w : Word40} {f : FaultCode} (h : rejection (decode w) = some f) (S : Nat) (seeded : Bool) :
    refStep S seeded w.toNat = (S, seeded, (rspWord (statusOf f) 0 0).toNat) := by
  rw [refStep_fields]
  rw [rejection_decode] at h
  split_ifs at h with hop hlen hrsv
  · cases h
    rw [if_pos hop]
    rfl
  · cases h
    rw [if_neg hop, if_pos hlen]
    rfl
  · cases h
    rw [if_neg hop, if_neg hlen, if_pos ((refReserved_ne_zero_iff hop).mpr hrsv)]
    rfl

theorem refStep_legal {w : Word40} (h : rejection (decode w) = none) (S : Nat) (seeded : Bool) :
    refStep S seeded w.toNat =
      if opField w = 1 then ((dataField w).toNat, true, refRsp 0 0 0)
      else if seeded = false then (S, seeded, refRsp 4 0 0)
      else ((refLoop (dataField w).toNat (drawCount w) 0 S 0).1, true,
        refRsp 0 (drawCount w) (refLoop (dataField w).toNat (drawCount w) 0 S 0).2) := by
  obtain ⟨hop, hlen, hrsv⟩ := rejection_eq_none_iff.mp h
  rw [refStep_fields, if_neg hop, if_neg hlen, if_neg (mt (refReserved_ne_zero_iff hop).mp hrsv)]

theorem packLanes_cons_toNat_of_length_le {b : Byte} {bs : List Byte} (h : bs.length ≤ 3) :
    (packLanes (b :: bs)).toNat = b.toNat + 2 ^ 8 * (packLanes bs).toNat := by
  have hlt : (packLanes bs).toNat < 2 ^ 24 :=
    (packLanes_lt bs).trans_le (Nat.pow_le_pow_right (by decide) (by omega))
  rw [packLanes_cons_toNat, Nat.mod_eq_of_lt hlt]

/-- The loop of R106 from lane `j` on: as many updates of `S`, and the bytes drawn XOR the data lanes, packed at `j`. -/
theorem refLoop_toNat (data : Data) (n j : Nat) (S : Data) (out : Nat) (h : j + n ≤ 4) :
    refLoop data.toNat n j S.toNat out = ((lcg^[n] S).toNat,
      out + (packLanes (xorBytes ((List.range' j n).map (laneByte data)) (keyBytes S n))).toNat * 2 ^ (8 * j)) := by
  induction n generalizing j S out with
  | zero => simp [refLoop, xorBytes, packLanes]
  | succ n ih =>
    have hlane : sliceNat data.toNat (8 * j) 8 = (laneByte data j).toNat := (laneByte_toNat data j).symm
    have hlow : sliceNat (lcg S).toNat 0 8 = (lowByte (lcg S)).toNat := by
      rw [sliceNat, lowByte_toNat, Nat.pow_zero, Nat.div_one]
      rfl
    have hkey : keyBytes S (n + 1) = lowByte (lcg S) :: keyBytes (lcg S) n := by
      rw [Nat.add_comm, keyBytes_add]
      rfl
    have hxor : xorBytes ((List.range' j (n + 1)).map (laneByte data)) (keyBytes S (n + 1)) =
        (laneByte data j ^^^ lowByte (lcg S)) ::
          xorBytes ((List.range' (j + 1) n).map (laneByte data)) (keyBytes (lcg S) n) := by
      rw [hkey]
      rfl
    rw [refLoop, ← lcg_toNat, ih _ _ _ (by omega), hlane, hlow, ← BitVec.toNat_xor, hxor,
      packLanes_cons_toNat_of_length_le (by simp [xorBytes]; omega), Nat.mul_succ, Nat.add_comm (8 * j), Nat.pow_add,
      Function.iterate_succ_apply]
    ring_nf

theorem refLoop_zero (data S : Data) {n : Nat} (h : n ≤ 4) : refLoop data.toNat n 0 S.toNat 0 =
    ((lcg^[n] S).toNat, (packLanes (xorBytes (lanes n data) (keyBytes S n))).toNat) := by
  rw [refLoop_toNat data n 0 S 0 (by omega), lanes, List.range_eq_range', Nat.zero_add, Nat.mul_zero, Nat.pow_zero,
    Nat.mul_one]

/-- What a word carries depends on the command it decodes to. -/
theorem Carries.congr {v w : Word40} {ds : List Byte} (h : Carries v ds) (hw : decode w = decode v) : Carries w ds := by
  rwa [Carries, hw]

theorem lanes_zero (n : Nat) : lanes n 0 = List.replicate n 0 := by
  have hzero : laneByte 0 = fun _ => 0 := funext fun j => by simp [laneByte]
  rw [lanes, hzero, List.map_const', List.length_range]

/-- A legal draw word carries its data lanes, which in a keystream command are zero. -/
theorem carries_lanes {w : Word40} (hop : opField w ≠ 1) (hr : rejection (decode w) = none) :
    Carries w (lanes (drawCount w) (dataField w)) := by
  have hd := dataField_toNat w
  rcases decode_cases w with ⟨-, e⟩ | ⟨h, -⟩ | ⟨h, e⟩ | ⟨h, e⟩ | ⟨h, e⟩ | ⟨h, e⟩ | ⟨-, e⟩ | ⟨-, e⟩
  · rw [e] at hr
    cases hr
  · exact absurd h hop
  · rw [e, rejection, reservedRejection_eq_none_iff] at hr
    have hdata : dataField w = 0 := by
      rw [← BitVec.toNat_inj, extractLsb'_toNat_div] at hr
      rw [← BitVec.toNat_inj]
      bv_omega
    rw [drawCount, if_pos (.inl h), hdata]
    exact carries_nextWord.congr (by rw [e, hr]; decide)
  · rw [e, rejection, reservedRejection_eq_none_iff] at hr
    have hlane : lanes 1 (dataField w) = [w.extractLsb' 0 8] := by
      refine List.singleton_inj.mpr (BitVec.eq_of_toNat_eq ?_)
      rw [laneByte_toNat, extractLsb'_toNat_div, Nat.mul_zero, Nat.pow_zero, Nat.div_one, Nat.div_one]
      omega
    rw [drawCount, if_pos (.inr h), hlane]
    exact (carries_xorbWord _).congr (by rw [e, hr, decode_xorbWord])
  · rw [e, rejection, Option.or_eq_none_iff, lengthRejection_none, reservedRejection_eq_none_iff] at hr
    obtain ⟨⟨h1, h4⟩, hdata⟩ := hr
    rw [drawCount, if_neg (by simp [h]), hdata, lanes_zero]
    exact (carries_nextwWord h1 h4).congr (by simp [e, hdata, nextwWord, decode_encode_nextw])
  · rw [e] at hr
    obtain ⟨⟨-, h4⟩, -⟩ := rejection_xorw_eq_none_iff.mp hr
    rw [drawCount, if_neg (by simp [h])]
    refine ⟨by simpa using h4, fun c hs => ?_⟩
    rw [e, CoreInst.after_xorw hr c hs, lanes_length, BitVec.ofNat_toNat, BitVec.setWidth_eq, ← hs]
    rfl
  · rw [e] at hr
    cases hr
  · rw [e] at hr
    cases hr

/-- 60_exceptions.md R106 at one port: the transcribed step function answers what the command leaves and adds. -/
theorem CoreInst.after_refStep (w : Word40) (c : CoreInst) : ∃ r, (c.after (decode w)).rsps = c.rsps ++ [r] ∧
    refStep c.S.toNat c.seeded w.toNat =
      ((c.after (decode w)).S.toNat, (c.after (decode w)).seeded, r.toNat) := by
  cases hr : rejection (decode w) with
  | some f =>
    rw [refStep_rejected hr, CoreInst.after_rejected hr]
    exact ⟨_, rfl, rfl⟩
  | none =>
    rw [refStep_legal hr]
    by_cases hop : opField w = 1
    · have hseed := decode_of_opField_one hop
      rw [hseed, rejection, reservedRejection_eq_none_iff] at hr
      rw [if_pos hop, hseed, hr, CoreInst.after_seed]
      exact ⟨_, rfl, rfl⟩
    · rw [if_neg hop]
      cases hs : c.seeded with
      | false =>
        rw [CoreInst.after_unseeded (isDraw_of_opField_ne_one hop) hr hs, if_pos rfl]
        exact ⟨_, rfl, by rw [CoreInst.takeFault_seeded, hs]; rfl⟩
      | true =>
        obtain ⟨h4, hafter⟩ := carries_lanes hop hr
        rw [lanes_length] at h4 hafter
        rw [hafter c hs, if_neg nofun, refLoop_zero _ _ h4]
        refine ⟨_, rfl, ?_⟩
        rw [CoreInst.drawn_S, CoreInst.drawn_seeded, hs, ← refRsp_toNat, ofNat_toNat_of_le_four h4]
        rfl

theorem CoreInst.executes_refRun (ws : List Word40) (c : CoreInst) : ∃ rs, (c.executes ws).rsps = c.rsps ++ rs ∧
    refRun (ws.map BitVec.toNat) c.S.toNat c.seeded =
      ((c.executes ws).S.toNat, (c.executes ws).seeded, rs.map BitVec.toNat) := by
  induction ws generalizing c with
  | nil => exact ⟨[], by simp, rfl⟩
  | cons w ws ih =>
    obtain ⟨r, hr, hstep⟩ := c.after_refStep w
    obtain ⟨rs, hrs, hrun⟩ := ih (c.after (decode w))
    refine ⟨r :: rs, by rw [CoreInst.executes_cons, hrs, hr]; simp, ?_⟩
    rw [List.map_cons, refRun, hstep]
    simp only [hrun]
    rfl

/-- Settles O47: the words that left the channel have been executed in order, and each is the reference step. -/
theorem everyRunIsTheFoldOfTheReferenceStep : Obligations.EveryRunIsTheFoldOfTheReferenceStep := by
  intro es s t os p c hes hc hcmds hrsps hrun
  obtain ⟨c', hc', done, hwords, hdone⟩ := State.runEvents_progress hes hrun hc
  obtain ⟨rs, hrs, href⟩ := (c.framed [] c'.cmds).executes_refRun done
  rw [hdone, CoreInst.framed_rsps, CoreInst.framed_rsps, hrsps, List.append_nil, List.nil_append] at hrs
  rw [hdone, ← hrs] at href
  exact ⟨c', done, hc', by rwa [hcmds] at hwords, href⟩

end Sys2Proof.Machine

namespace Sys2Proof.Machine

/-! ### Decoding and encoding undo each other (30_encoding.md R45, R48, R51) -/

theorem opField_append_rest (w : Word40) : opField w ++ w.extractLsb' 0 36 = w := by
  rw [← BitVec.toNat_inj, append_toNat, opField_toNat, extractLsb'_toNat_div]
  omega

theorem opField_append_slices (w : Word40) : opField w ++ w.extractLsb' 8 28 ++ w.extractLsb' 0 8 = w := by
  rw [← BitVec.toNat_inj, append_toNat, append_toNat, opField_toNat, extractLsb'_toNat_div, extractLsb'_toNat_div]
  omega

theorem extractLsb'_eq_of_toNat {n : Nat} {w : Word40} {lo : Nat} {x : BitVec n}
    (h : w.toNat / 2 ^ lo % 2 ^ n = x.toNat) : w.extractLsb' lo n = x := by
  rw [← BitVec.toNat_inj, extractLsb'_toNat_div, h]

theorem decode_encode_seed (rsv : Nibble) (imm : Data) : decode (encode (.seed rsv imm)) = .seed rsv imm := by
  have hop : opField (encode (.seed rsv imm)) = 1 := rspStatus_rspWord 1 rsv imm
  have hrsv : lenField (encode (.seed rsv imm)) = rsv := rspLen_rspWord 1 rsv imm
  have himm : dataField (encode (.seed rsv imm)) = imm := rspData_rspWord 1 rsv imm
  rw [decode_of_opField_one hop, hrsv, himm]

theorem decode_encode_next (rsv : BitVec 36) : decode (encode (.next rsv)) = .next rsv := by
  have hop : opField (encode (.next rsv)) = 2 :=
    BitVec.eq_of_toNat_eq (List.mem_singleton.mp (Laws.EncodedOpcode.next rsv))
  have hrsv : (encode (.next rsv)).extractLsb' 0 36 = rsv :=
    extractLsb'_eq_of_toNat (by simp only [encode_toNat]; omega)
  simp [decode, hop, hrsv]

theorem decode_encode_xorb (rsv : BitVec 28) (d8 : Byte) : decode (encode (.xorb rsv d8)) = .xorb rsv d8 := by
  have hop : opField (encode (.xorb rsv d8)) = 3 :=
    BitVec.eq_of_toNat_eq (List.mem_singleton.mp (Laws.EncodedOpcode.xorb rsv d8))
  have hrsv : (encode (.xorb rsv d8)).extractLsb' 8 28 = rsv :=
    extractLsb'_eq_of_toNat (by simp only [encode_toNat]; omega)
  have hd8 : (encode (.xorb rsv d8)).extractLsb' 0 8 = d8 :=
    extractLsb'_eq_of_toNat (by simp only [encode_toNat]; omega)
  simp [decode, hop, hrsv, hd8]

theorem decode_encode_illegalOp0 (rest : BitVec 36) : decode (encode (.illegalOp0 rest)) = .illegalOp0 rest := by
  have hop : opField (encode (.illegalOp0 rest)) = 0 :=
    BitVec.eq_of_toNat_eq (List.mem_singleton.mp (Laws.EncodedOpcode.illegalOp0 rest))
  have hrest : (encode (.illegalOp0 rest)).extractLsb' 0 36 = rest :=
    extractLsb'_eq_of_toNat (by simp only [encode_toNat]; omega)
  simp [decode, hop, hrest]

theorem decode_encode_illegalOp67 (rest : BitVec 37) : decode (encode (.illegalOp67 rest)) = .illegalOp67 rest := by
  have hop : opField (encode (.illegalOp67 rest)) = 6 ∨ opField (encode (.illegalOp67 rest)) = 7 := by
    simpa [Laws.EncodedOpcode.Statement, Laws.opcodesOf, ← BitVec.toNat_inj] using Laws.EncodedOpcode.illegalOp67 rest
  have hrest : (encode (.illegalOp67 rest)).extractLsb' 0 37 = rest :=
    extractLsb'_eq_of_toNat (by simp only [encode_toNat]; omega)
  rcases hop with hop | hop <;> simp [decode, hop, hrest]

theorem opField_ne_of_eight_le {w : Word40} (h : 8 ≤ (opField w).toNat) {o : Nibble} (ho : o.toNat < 8) :
    opField w ≠ o := by
  rintro rfl
  omega

theorem decode_of_eight_le_opField {w : Word40} (h : 8 ≤ (opField w).toNat) :
    decode w = .illegalOp8F (w.extractLsb' 0 39) := by
  simp [decode, opField_ne_of_eight_le h]

theorem decode_encode_illegalOp8F (rest : BitVec 39) : decode (encode (.illegalOp8F rest)) = .illegalOp8F rest := by
  have hop : 8 ≤ (opField (encode (.illegalOp8F rest))).toNat := by
    simp only [opField_toNat, encode_toNat]
    omega
  have hrest : (encode (.illegalOp8F rest)).extractLsb' 0 39 = rest :=
    extractLsb'_eq_of_toNat (by simp only [encode_toNat]; omega)
  rw [decode_of_eight_le_opField hop, hrest]

/-- Settles O1, row by row: the opcode of the word selects the row, and each slice of the word is its field. -/
theorem decodeOfEncodeIsTheCommand : Obligations.DecodeOfEncodeIsTheCommand := by
  intro i
  cases i with
  | seed rsv imm => exact decode_encode_seed rsv imm
  | next rsv => exact decode_encode_next rsv
  | xorb rsv d8 => exact decode_encode_xorb rsv d8
  | nextw len rsv => exact decode_encode_nextw len rsv
  | xorw len data => exact decode_encode_xorw len data
  | illegalOp0 rest => exact decode_encode_illegalOp0 rest
  | illegalOp67 rest => exact decode_encode_illegalOp67 rest
  | illegalOp8F rest => exact decode_encode_illegalOp8F rest

/-- Settles O2, row by row: the slices that the row's fields take, put back at their places, are the whole word. -/
theorem encodeOfDecodeIsTheWord : Obligations.EncodeOfDecodeIsTheWord := by
  intro w
  have hop := opField_toNat w
  have hrest := opField_append_rest w
  have hslices := opField_append_slices w
  have hfields := rspWord_fields w
  rcases decode_cases w with ⟨h, e⟩ | ⟨h, e⟩ | ⟨h, e⟩ | ⟨h, e⟩ | ⟨h, e⟩ | ⟨h, e⟩ | ⟨h, e⟩ | ⟨h, e⟩
  · rw [h] at hrest
    rw [e]
    exact hrest
  · rw [h] at hfields
    rw [e]
    exact hfields
  · rw [h] at hrest
    rw [e]
    exact hrest
  · rw [h] at hslices
    rw [e]
    exact hslices
  · rw [h] at hfields
    rw [e]
    exact hfields
  · rw [h] at hfields
    rw [e]
    exact hfields
  · rw [e, ← BitVec.toNat_inj, encode_toNat]
    simp only [extractLsb'_toNat_div]
    bv_omega
  · rw [e, ← BitVec.toNat_inj, encode_toNat]
    simp only [extractLsb'_toNat_div]
    bv_omega

/-- Settles O3: eight words evaluated. -/
theorem writtenOutWordsDecode : Obligations.WrittenOutWordsDecode := by
  unfold Obligations.WrittenOutWordsDecode
  decide

end Sys2Proof.Machine

namespace Sys2Proof.Machine

/-! ### The form of the responses (30_encoding.md R44) -/

theorem rspWf_fault (f : FaultCode) : rspWf (rspWord (statusOf f) 0 0) := by
  cases f <;> decide

/-- A response with status `OK`: as many lanes as its length says, no more than four of them. -/
theorem rspWf_ok {len : Nibble} {bs : List Byte} (h4 : len.toNat ≤ 4) (hlen : bs.length ≤ len.toNat) :
    rspWf (rspWord 0 len (packLanes bs)) := by
  have hdata : (packLanes bs).toNat < 2 ^ (8 * len.toNat) :=
    (packLanes_lt bs).trans_le (Nat.pow_le_pow_right (by decide) (by omega))
  unfold rspWf
  rw [rspStatus_rspWord, rspLen_rspWord, rspData_rspWord]
  exact ⟨by decide, h4, hdata, fun h => absurd rfl h⟩

/-- Every response that waits at the port has the form of 30_encoding.md R44. -/
def CoreInst.RspsWf (c : CoreInst) : Prop := ∀ r ∈ c.rsps, rspWf r

theorem CoreInst.RspsWf.respond {c d : CoreInst} {st len : Nibble} {data : Data} (h : c.RspsWf)
    (hd : d.rsps = c.rsps ++ [rspWord st len data]) (hr : rspWf (rspWord st len data)) : d.RspsWf := by
  intro r hmem
  rw [hd, List.mem_append, List.mem_singleton] at hmem
  rcases hmem with hmem | rfl
  · exact h r hmem
  · exact hr

/-- Whatever the command, the response it adds has the form. -/
theorem CoreInst.RspsWf.after {c : CoreInst} (h : c.RspsWf) (i : Instr) : (c.after i).RspsWf := by
  rcases CoreInst.after_cases i c with ⟨f, -, ha⟩ | ⟨-, -, -, ha⟩ | ⟨imm, -, ha⟩ | ⟨len, ds, -, -, -, -, h4, hds, ha⟩
  · exact h.respond (by rw [ha]; rfl) (rspWf_fault f)
  · exact h.respond (by rw [ha]; rfl) (rspWf_fault .unseeded)
  · exact h.respond (by rw [ha]; rfl) (by decide)
  · exact h.respond (by rw [ha]; rfl) (rspWf_ok h4 (by simp))

theorem CoreInst.RspsWf.tail {c : CoreInst} (h : c.RspsWf) : CoreInst.RspsWf { c with rsps := c.rsps.tail } :=
  fun r hr => h r (List.mem_of_mem_tail hr)

/-! ### The invariant is kept (20_memory.md R27; 30_encoding.md R44) -/

/-- What an update keeps at its own port it keeps at all of them. -/
theorem State.updInst_forall {s : State} {p : Nat} {f : CoreInst → CoreInst} {P : CoreInst → Prop}
    (h : ∀ c ∈ s.insts, P c) (hf : ∀ c, P c → P (f c)) : ∀ c ∈ (s.updInst p f).insts, P c := by
  intro c hc
  obtain ⟨q, hq⟩ := List.mem_iff_getElem?.mp hc
  by_cases hqp : q = p
  · subst hqp
    rw [State.updInst_same] at hq
    obtain ⟨d, hd, rfl⟩ := Option.map_eq_some_iff.mp hq
    exact hf d (h d (List.mem_of_getElem? hd))
  · rw [State.updInst_other s f hqp] at hq
    exact h c (List.mem_of_getElem? hq)

theorem State.updInst_wf {s : State} (h : s.wf) (p : Nat) (f : CoreInst → CoreInst) : (s.updInst p f).wf := by
  obtain ⟨hcur, hdepth⟩ := h
  exact ⟨by simpa using hcur, hdepth⟩

/-- A host move on one port keeps the invariant if it keeps the form of the responses there. -/
theorem State.Inv.updInst {s : State} {p : Nat} {f : CoreInst → CoreInst} (h : s.Inv)
    (hf : ∀ c : CoreInst, c.RspsWf → (f c).RspsWf) : (s.updInst p f).Inv :=
  have ⟨hwf, hrsps⟩ := h
  ⟨State.updInst_wf hwf p f, State.updInst_forall hrsps hf⟩

theorem State.Inv.served {s : State} {p : Nat} (h : s.Inv) (hp : p < s.insts.length) (w : Word40) :
    (s.served p w).Inv := by
  obtain ⟨⟨-, hdepth⟩, hrsps⟩ := h
  refine ⟨⟨hp.trans_eq (s.updInst_length p _).symm, hdepth⟩, State.updInst_forall hrsps fun c hc => ?_⟩
  exact CoreInst.RspsWf.after (c := { c with cmds := c.cmds.tail }) hc (decode w)

/-- Settles O54: a step passes the turn, or executes a word at a port that is there, where the response has the form. -/
theorem stepKeepsTheInvariant : Obligations.StepKeepsTheInvariant := by
  intro s h
  rcases step_cases s with ⟨-, hidle⟩ | ⟨p, c, w, hp, -, -, hserved⟩
  · exact ⟨_, hidle, h⟩
  · exact ⟨_, hserved, h.served (State.ready_lt (State.nextPort_ready hp)) w⟩

theorem State.Inv.coreReset {s : State} (h : s.Inv) (L : List Data) : (s.coreReset L).Inv := by
  obtain ⟨⟨hcur, hdepth⟩, -⟩ := h
  refine ⟨⟨by rw [State.coreReset_length]; exact Nat.zero_lt_of_lt hcur, hdepth⟩, fun c hc r hr => ?_⟩
  obtain ⟨p, hp, rfl⟩ := List.mem_mapIdx.mp hc
  exact absurd hr List.not_mem_nil

/-- The response the host takes is one of those that waited. -/
theorem State.Inv.rspWf_of_take {s : State} {p : Nat} {r : Word40} (h : s.Inv) (hr : (s.take p).1 = some r) :
    rspWf r := by
  obtain ⟨-, hrsps⟩ := h
  obtain ⟨c, hc, hhead⟩ := Option.bind_eq_some_iff.mp hr
  exact hrsps c (List.mem_of_getElem? hc) r (List.mem_of_mem_head? hhead)

/-- One event from a State with the invariant. -/
theorem State.Inv.event {s : State} (h : s.Inv) (e : Event) :
    ∃ os t, s.event e = some (os, t) ∧ t.Inv ∧ ∀ o ∈ os, rspWf o.2 := by
  cases e with
  | step =>
    obtain ⟨t, ht, hinv⟩ := stepKeepsTheInvariant s h
    exact ⟨[], t, by simp only [State.event, ht], hinv, nofun⟩
  | present p w => exact ⟨[], _, rfl, h.updInst fun _ hc => hc, nofun⟩
  | take p =>
    refine ⟨_, _, rfl, h.updInst fun _ hc => hc.tail, fun o ho => ?_⟩
    obtain ⟨r, hr, rfl⟩ := Option.map_eq_some_iff.mp (Option.mem_toList.mp ho)
    exact h.rspWf_of_take hr
  | serve p => exact ⟨[], _, rfl, h, nofun⟩
  | reset L => exact ⟨[], _, rfl, h.coreReset L, nofun⟩

/-- Settles O55, by induction on the events, each by `State.Inv.event`. -/
theorem everyRunKeepsTheInvariant : Obligations.EveryRunKeepsTheInvariant := by
  intro es
  induction es with
  | nil => exact fun s h => ⟨[], s, rfl, h, nofun⟩
  | cons e es ih =>
    intro s h
    obtain ⟨os₁, s₁, he, h₁, hos₁⟩ := h.event e
    obtain ⟨os₂, t, hrun, ht, hos₂⟩ := ih s₁ h₁
    refine ⟨os₁ ++ os₂, t, by simp [State.runEvents, he, hrun], ht, fun o ho => ?_⟩
    exact (List.mem_append.mp ho).elim (hos₁ o) (hos₂ o)

/-- Settles O53: after reset no response waits, and port 0 is there. -/
theorem resetSatisfiesTheInvariant : Obligations.ResetSatisfiesTheInvariant := by
  have hreset (n : Nat) (hn : 1 ≤ n) : (State.resetN n).Inv := by
    refine ⟨⟨by simpa [State.resetN] using Nat.lt_of_succ_le hn, nofun⟩, fun c hc r hr => ?_⟩
    rw [List.eq_of_mem_replicate hc] at hr
    exact absurd hr List.not_mem_nil
  exact ⟨hreset 1 le_rfl, hreset⟩

end Sys2Proof.Machine

namespace Sys2Proof.Machine

/-! ### The (mask, match) table of the legal words (30_encoding.md R48) -/

theorem append_eq_append_iff {m n : Nat} {x x' : BitVec m} {y y' : BitVec n} :
    x ++ y = x' ++ y' ↔ x = x' ∧ y = y' := by
  refine ⟨fun h => ⟨?_, ?_⟩, fun ⟨hx, hy⟩ => hx ▸ hy ▸ rfl⟩
  · simpa [BitVec.extractLsb'_append_eq_left] using congrArg (BitVec.extractLsb' n m) h
  · simpa [BitVec.setWidth_append_eq_right] using congrArg (BitVec.setWidth n) h

/-- A mask and a match on a word apply to its parts. -/
theorem and_append_eq_append_iff {m n : Nat} {x k v : BitVec m} {y k' v' : BitVec n} :
    (x ++ y) &&& (k ++ k') = v ++ v' ↔ x &&& k = v ∧ y &&& k' = v' := by
  rw [BitVec.and_append, append_eq_append_iff]

/-- The mask and match of a word in the layout of 30_encoding.md R43. -/
theorem and_rspWord_eq_iff (w : Word40) (k v k' v' : Nibble) (m u : Data) :
    w &&& rspWord k k' m = rspWord v v' u ↔ (opField w &&& k = v ∧ lenField w &&& k' = v') ∧ dataField w &&& m = u := by
  rw [← and_append_eq_append_iff, ← and_append_eq_append_iff]
  exact iff_of_eq (congrArg (· &&& _ = _) (rspWord_fields w).symm)

/-- `SEED`: opcode 1, bits 35:32 zero. -/
theorem seed_mask_iff (w : Word40) : w &&& 0xFF00000000#40 = 0x1000000000#40 ↔ opField w = 1 ∧ lenField w = 0 := by
  have h := and_rspWord_eq_iff w (BitVec.allOnes 4) 1 (BitVec.allOnes 4) 0 0#32 0#32
  rw [BitVec.and_allOnes, BitVec.and_allOnes, BitVec.and_zero, and_iff_left rfl] at h
  exact h

/-- `NEXT`: opcode 2, bits 35:0 zero. -/
theorem next_mask_iff (w : Word40) :
    w &&& 0xFFFFFFFFFF#40 = 0x2000000000#40 ↔ opField w = 2 ∧ w.extractLsb' 0 36 = 0 := by
  have h := and_append_eq_append_iff (x := opField w) (y := w.extractLsb' 0 36) (k := BitVec.allOnes 4) (v := 2)
    (k' := BitVec.allOnes 36) (v' := 0)
  rw [opField_append_rest, BitVec.and_allOnes, BitVec.and_allOnes] at h
  exact h

/-- `XORB`: opcode 3, bits 35:8 zero. -/
theorem xorb_mask_iff (w : Word40) :
    w &&& 0xFFFFFFFF00#40 = 0x3000000000#40 ↔ opField w = 3 ∧ w.extractLsb' 8 28 = 0 := by
  have h := and_append_eq_append_iff (x := opField w ++ w.extractLsb' 8 28) (y := w.extractLsb' 0 8)
    (k := BitVec.allOnes 4 ++ BitVec.allOnes 28) (v := (3 : Nibble) ++ (0 : BitVec 28)) (k' := 0#8) (v' := 0#8)
  rw [opField_append_slices, and_append_eq_append_iff, BitVec.and_allOnes, BitVec.and_allOnes, BitVec.and_zero,
    and_iff_left rfl] at h
  exact h

/-- `NEXTW`: opcode 4, bits 31:0 zero. -/
theorem nextw_mask_iff (w : Word40) : w &&& 0xF0FFFFFFFF#40 = 0x4000000000#40 ↔ opField w = 4 ∧ dataField w = 0 := by
  have h := and_rspWord_eq_iff w (BitVec.allOnes 4) 4 0#4 0#4 (BitVec.allOnes 32) 0
  rw [BitVec.and_allOnes, BitVec.and_allOnes, BitVec.and_zero, and_iff_left rfl] at h
  exact h

/-- `XORW`: opcode 5. -/
theorem xorw_mask_iff (w : Word40) : w &&& 0xF000000000#40 = 0x5000000000#40 ↔ opField w = 5 := by
  have h := and_rspWord_eq_iff w (BitVec.allOnes 4) 5 0#4 0#4 0#32 0#32
  rw [BitVec.and_allOnes, BitVec.and_zero, BitVec.and_zero, and_iff_left rfl, and_iff_left rfl] at h
  exact h

/-- Settles O4: each mask and match names an opcode and the row's reserved bits; the rest goes row by row. -/
theorem legalWordsAreTheTablesWords : Obligations.LegalWordsAreTheTablesWords := by
  intro w
  refine ⟨?_, rejection_eq_none_iff_wf.symm⟩
  rw [seed_mask_iff, next_mask_iff, xorb_mask_iff, nextw_mask_iff, xorw_mask_iff]
  rcases decode_cases w with ⟨h, e⟩ | ⟨h, e⟩ | ⟨h, e⟩ | ⟨h, e⟩ | ⟨h, e⟩ | ⟨h, e⟩ | ⟨h, e⟩ | ⟨h, e⟩
  · simp [e, h, Instr.wf]
  · simp [e, h, Instr.wf]
  · simp [e, h, Instr.wf]
  · simp [e, h, Instr.wf]
  · simp [e, h, Instr.wf, lengthLegal, and_comm]
  · have hfour : (lenField w).toNat = 4 → (dataField w).toNat / 2 ^ (8 * (lenField w).toNat) = 0 :=
      fun h4 => Nat.div_eq_of_lt (by rw [h4]; exact (dataField w).isLt)
    simp only [e, h, Instr.wf, lengthLegal, upperLanesZero, Bool.and_eq_true, decide_eq_true_eq, BitVec.ofNat_eq_ofNat,
      BitVec.reduceEq, false_and, true_and, false_or]
    generalize (dataField w).toNat / 2 ^ (8 * (lenField w).toNat) = upper at hfour ⊢
    omega
  · rcases h with h | h <;> simp [e, h, Instr.wf]
  · simp [e, opField_ne_of_eight_le h, Instr.wf]

/-! ### Lanes (20_memory.md R32) -/

/-- Settles O5, by `packLanes_lane` and `lanes_packLanes`. -/
theorem packedBytesAreReadBackInLaneOrder : Obligations.PackedBytesAreReadBackInLaneOrder :=
  fun bs h => ⟨fun _ hj => packLanes_lane bs hj, lanes_packLanes h⟩

end Sys2Proof.Machine

namespace Sys2Proof.Machine

/-! ### What a command leaves alone (10_state.md R13, R15, R23; 20_memory.md R27, R37) -/

/-- Settles O19: a command is one update of the current port, which adds one response there; an illegal encoding is only
answered with its fault. -/
theorem commandsChangeTheirOwnInstanceOnly : Obligations.CommandsChangeTheirOwnInstanceOnly := by
  intro i s t c c' ht hc hc'
  obtain ⟨-, rfl⟩ := exec_eq_next.mp ht
  rw [State.updInst_same, hc] at hc'
  cases hc'
  obtain ⟨r, hrsps, hcmds⟩ := CoreInst.after_responds i c
  refine ⟨rfl, rfl, rfl, s.updInst_length _ _, fun p hp => s.updInst_other _ hp, hcmds, ⟨r, hrsps⟩, fun hdraw => ?_,
    fun hwf => ?_⟩
  · rw [Bool.eq_iff_iff, CoreInst.after_seeded_iff, or_iff_left fun ⟨imm, hi⟩ => hdraw 0 imm hi]
  · have hr : rejection i ≠ none := fun h => by simp [rejection_eq_none_iff_wf.mp h] at hwf
    obtain ⟨f, hf⟩ := Option.ne_none_iff_exists'.mp hr
    rw [CoreInst.after_rejected hf]
    exact ⟨rfl, rfl⟩

/-- Settles O18: each of the three rows is its fault. -/
theorem illegalRowsAnswerIllegalOpcode : Obligations.IllegalRowsAnswerIllegalOpcode := by
  intro s ⟨hcur, _⟩
  have h {i : Instr} (hr : rejection i = some .illegalOpcode) : exec i s = .next (s.answered 0x1000000000#40) :=
    exec_rejected hcur hr
  exact ⟨fun _ => h rfl, fun _ => h rfl, fun _ => h rfl⟩

/-- `S` comes back only after 2^32 updates (40_generator.md R65). -/
theorem lcg_iterate_ne_self {n : Nat} (h1 : 1 ≤ n) (h : n < 2 ^ 32) (s : Data) : lcg^[n] s ≠ s := by
  intro hs
  have hdvd : 2 ^ 32 ∣ n := isOddAffine_lcg.minimalPeriod s ▸ Function.IsPeriodicPt.minimalPeriod_dvd hs
  exact absurd (Nat.le_of_dvd h1 hdvd) (Nat.not_le.mpr h)

/-- Settles O28: `SEED` overwrites; a legal draw moves `S` on by one to four updates; taking a response writes only the
channel. -/
theorem seedIsIdempotentAndDrawsAreNot : Obligations.SeedIsIdempotentAndDrawsAreNot := by
  refine ⟨fun imm c => ⟨rfl, rfl⟩, fun i s t c c' hc hs hwf hdraw ht hc' => ?_, fun s p q => ?_⟩
  · obtain ⟨-, rfl⟩ := exec_eq_next.mp ht
    rw [State.updInst_same, hc] at hc'
    cases hc'
    obtain ⟨len, ds, h1, h4, -, hafter⟩ := CoreInst.drawn_of_legal hdraw (rejection_eq_none_iff_wf.mpr hwf)
    rw [hafter, drawFault, rejection_eq_none_iff_wf.mpr hwf, hs]
    exact lcg_iterate_ne_self h1 (by omega) c.S
  · by_cases hqp : q = p
    · subst hqp
      simp [State.take, Function.comp_def]
    · rw [State.take, State.updInst_other s _ hqp]

/-! ### A fault is not sticky (60_exceptions.md R104) -/

theorem State.updInst_self {s : State} {p : Nat} {c : CoreInst} (hc : s.insts[p]? = some c) :
    s.updInst p (fun _ => c) = s := by
  have h : s.updInst p (fun _ => c) = s.updInst p id := State.updInst_congr hc rfl
  rw [h, State.updInst, List.modify_id]

theorem CoreInst.eq_of_empty {c : CoreInst} (hcmds : c.cmds = []) (hrsps : c.rsps = []) :
    ({ S := c.S, seeded := c.seeded, cmds := [], rsps := [] } : CoreInst) = c := by
  cases c
  cases hcmds
  cases hrsps
  rfl

/-- At a port whose channels are empty it does not matter which port the core served last. -/
theorem State.transact_cur {s : State} {p : Nat} (q : Nat) (w : Word40) (hd : s.rspDepth ≠ some 0)
    (hp : s.drained p) : { s with cur := q }.transact p w = s.transact p w := by
  obtain ⟨c, hc, hcmds, hrsps⟩ := hp
  obtain ⟨r, hr, ht⟩ := State.transact_eq w hd hc hcmds hrsps
  obtain ⟨r', hr', ht'⟩ := State.transact_eq (s := { s with cur := q }) w hd hc hcmds hrsps
  rw [ht, ht', List.singleton_inj.mp (hr.symm.trans hr')]
  rfl

/-- Settles O12: the fault's response is taken, so the port is as it was; and the next transaction does not read
`cur`. -/
theorem faultIsNotSticky : Obligations.FaultIsNotSticky := by
  intro s t p w r ws ⟨_, hd⟩ hp ht hr
  have hdrained := hp
  obtain ⟨c, hc, hcmds, hrsps⟩ := hp
  obtain ⟨r', hr', ht'⟩ := State.transact_eq w hd hc hcmds hrsps
  cases ht'.symm.trans ht
  have hfault : ∃ f, c.after (decode w) = c.takeFault f := by
    refine (CoreInst.after_takeFault_or_ok (decode w) c).resolve_right fun ⟨r'', hrsps', hok⟩ => hr ?_
    rw [hr', hrsps, List.nil_append] at hrsps'
    rw [List.singleton_inj.mp hrsps', hok]
  obtain ⟨f, hf⟩ := hfault
  rw [hf, CoreInst.takeFault_S, CoreInst.takeFault_seeded, CoreInst.eq_of_empty hcmds hrsps, State.updInst_self hc]
  refine ⟨rfl, fun hws => ?_⟩
  obtain ⟨v, vs, rfl⟩ := List.exists_cons_of_ne_nil hws
  rw [onPort, List.map_cons, State.transactAll, State.transactAll, State.transact_cur p v hd hdrained]

end Sys2Proof.Machine

namespace Sys2Proof.Machine

/-! ### Deciphering (42_block_operations.md R83, R88, R90) -/

/-- Settles O32: both runs XOR their bytes with the keystream of the seed, whatever their splits. -/
theorem anySplitDeciphersAnyOther : Obligations.AnySplitDeciphersAnyOther := by
  intro s s' t p p' z ds ds' rs hs hp hs' hp' hds hds' ht hcarried
  obtain ⟨rs₁, ht₁, -, hbytes⟩ := everySplitDrawsTheSameStream s p z ds hs hp hds
  obtain ⟨rs', ht', -, hbytes'⟩ := everySplitDrawsTheSameStream s' p' z ds' hs' hp' hds'
  cases ht.symm.trans ht₁
  refine ⟨rs', _, ht', ?_⟩
  rw [hbytes', hcarried, hbytes]
  exact decryptOfEncryptIsThePlaintext.1 z z (carriedBy ds) rfl

/-- Two seeds have one keystream byte, at whatever position, exactly if they agree modulo 256. -/
theorem keystream_eq_iff {z₁ z₂ : Int} (i : Nat) : keystream z₁ i = keystream z₂ i ↔ z₁ % 256 = z₂ % 256 := by
  rw [keystream_eq, keystream_eq, (nextByte_injective.iterate (i + 1)).eq_iff, lowByte_norm32_eq_iff]

theorem xor_xor_eq_self_iff {b k l : Byte} : b ^^^ k ^^^ l = b ↔ k = l := by
  rw [BitVec.xor_assoc, ← BitVec.xor_eq_zero_iff (x := k), ← BitVec.xor_right_inj b (x := k ^^^ l), BitVec.xor_zero]

/-- Settles O35: each byte is the plaintext byte XOR the two keystream bytes, which cancel exactly if they are equal. -/
theorem wrongSeedDiffersAtEveryByte : Obligations.WrongSeedDiffersAtEveryByte := by
  intro z₁ z₂ P
  refine ⟨by simp [decrypt, encrypt], fun i b hb => ⟨?_, ?_⟩⟩
  · obtain ⟨hi, rfl⟩ := List.getElem?_eq_some_iff.mp hb
    simp [decrypt, encrypt, xorBytes, KS, hi]
  · rw [xor_xor_eq_self_iff, keystream_eq_iff]

/-! ### Legal words of the assembler (30_encoding.md R52, R53) -/

theorem seedWord_legal (z : Int) : (decode (seedWord z)).wf = true := by
  rw [decode_seedWord]
  rfl

theorem nextWord_legal : (decode nextWord).wf = true := by decide

theorem xorbWord_legal (b : Byte) : (decode (xorbWord b)).wf = true := by
  rw [decode_xorbWord]
  rfl

theorem nextwWord_legal {n : Nat} (h1 : 1 ≤ n) (h4 : n ≤ 4) : (decode (nextwWord n)).wf = true := by
  rw [nextwWord, decode_encode_nextw, ← rejection_eq_none_iff_wf, rejection, Option.or_eq_none_iff,
    lengthRejection_none, ofNat_toNat_of_le_four h4]
  exact ⟨⟨h1, h4⟩, rfl⟩

theorem xorwWord_legal {bs : List Byte} (h1 : 1 ≤ bs.length) (h4 : bs.length ≤ 4) :
    (decode (xorwWord bs)).wf = true := by
  rw [xorwWord, decode_encode_xorw, ← rejection_eq_none_iff_wf, rejection_xorw_eq_none_iff, ofNat_toNat_of_le_four h4]
  exact ⟨⟨h1, h4⟩, Nat.div_eq_of_lt (packLanes_lt bs)⟩

theorem asmXorb_legal {b : Nat} {ws : List Word40} (h : asmXorb b = some ws) : ∀ w ∈ ws, (decode w).wf = true := by
  obtain ⟨x, -, rfl⟩ := Option.map_eq_some_iff.mp h
  exact List.forall_mem_singleton.mpr (xorbWord_legal x)

theorem asmBytes_eq (bs : List Nat) :
    asmBytes bs = if ∀ b ∈ bs, b ≤ 255 then some (bs.map (BitVec.ofNat 8)) else none := by
  induction bs with
  | nil => rfl
  | cons b bs ih =>
    rw [asmBytes, ih, asmByte]
    by_cases hb : b ≤ 255 <;> by_cases hbs : ∀ b ∈ bs, b ≤ 255 <;> simp [hb, hbs]

/-- `XORW` takes its count of bytes, one to four, each below 256 (30_encoding.md R52). -/
theorem asmXorw_eq (n : Nat) (bs : List Nat) :
    asmXorw n bs = if 1 ≤ n ∧ n ≤ 4 ∧ bs.length = n ∧ ∀ b ∈ bs, b ≤ 255 then
      some [xorwWord (bs.map (BitVec.ofNat 8))] else none := by
  rw [asmXorw, asmBytes_eq, apply_ite (Option.map _), Option.map_some, Option.map_none, ← ite_and]
  simp only [and_assoc]

theorem asmXorw_legal {n : Nat} {bs : List Nat} {ws : List Word40} (h : asmXorw n bs = some ws) :
    ∀ w ∈ ws, (decode w).wf = true := by
  rw [asmXorw_eq, Option.ite_none_right_eq_some] at h
  obtain ⟨⟨h1, h4, hn, -⟩, h⟩ := h
  cases h
  exact List.forall_mem_singleton.mpr (xorwWord_legal (by simp [hn, h1]) (by simp [hn, h4]))

theorem encryptWords_legal {z : Int} {ps : List Nat} {ws : List Word40}
    (h : (asmBytes ps).map (encryptWords z) = some ws) : ∀ w ∈ ws, (decode w).wf = true := by
  obtain ⟨P, -, rfl⟩ := Option.map_eq_some_iff.mp h
  refine List.forall_mem_cons.mpr ⟨seedWord_legal z, fun w hw => ?_⟩
  obtain ⟨b, -, rfl⟩ := List.mem_map.mp hw
  exact xorbWord_legal b

/-- Settles O38, line by line. -/
theorem assembledWordsAreLegal : Obligations.AssembledWordsAreLegal := by
  intro l ws h hraw
  cases l with
  | seed z =>
    cases h
    exact List.forall_mem_singleton.mpr (seedWord_legal z)
  | next =>
    cases h
    exact List.forall_mem_singleton.mpr nextWord_legal
  | nextw n =>
    rw [assemble, Option.ite_none_right_eq_some] at h
    obtain ⟨⟨h1, h4⟩, h⟩ := h
    cases h
    exact List.forall_mem_singleton.mpr (nextwWord_legal h1 h4)
  | keystream z n =>
    cases h
    refine List.forall_mem_cons.mpr ⟨seedWord_legal z, fun w hw => ?_⟩
    rw [List.eq_of_mem_replicate hw]
    exact nextWord_legal
  | xorb b => exact asmXorb_legal h
  | encb b => exact asmXorb_legal h
  | decb b => exact asmXorb_legal h
  | xorw n bs => exact asmXorw_legal h
  | encw n bs => exact asmXorw_legal h
  | decw n bs => exact asmXorw_legal h
  | encrypt z ps => exact encryptWords_legal h
  | decrypt z cs => exact encryptWords_legal h
  | raw w => exact absurd rfl (hraw w)

/-- Byte operands are their numbers. -/
theorem toNat_getD_map_ofNat {bs : List Nat} (h : ∀ b ∈ bs, b ≤ 255) (j : Nat) :
    ((bs.map (BitVec.ofNat 8)).getD j 0).toNat = bs.getD j 0 := by
  rw [List.getD_eq_getElem?_getD, List.getD_eq_getElem?_getD, List.getElem?_map]
  cases hb : bs[j]? with
  | none => rfl
  | some b => exact Nat.mod_eq_of_lt (Nat.lt_succ_of_le (h b (List.mem_of_getElem? hb)))

/-- Settles O39, clause by clause; the aliases and `DECRYPT` are defined as their line. -/
theorem assemblerEncodesOrRefuses : Obligations.AssemblerEncodesOrRefuses := by
  refine ⟨fun z => ?_, rfl, fun b => ?_, fun n => rfl, fun n bs h => ?_, fun n bs h => ?_, fun w => rfl,
    fun b => ⟨rfl, rfl⟩, fun n bs => ⟨rfl, rfl⟩, fun z bs => rfl⟩
  · rw [assemble, seedWord, Option.some_inj, List.singleton_inj, ← BitVec.toNat_inj, encode_toNat, append_toNat]
    simp
  · rw [assemble, asmXorb, asmByte]
    split_ifs with hb
    · rw [Option.map_some, Option.some_inj, List.singleton_inj, xorbWord, ← BitVec.toNat_inj, encode_toNat]
      bv_omega
    · rfl
  · obtain ⟨-, h4, rfl, hbs⟩ := id h
    refine ⟨packLanes (bs.map (BitVec.ofNat 8)), ?_, fun j hj => ?_⟩
    · rw [assemble, asmXorw_eq, if_pos h, xorwWord, List.length_map]
      rfl
    · rw [packLanes_lane _ hj, toNat_getD_map_ofNat hbs]
  · rw [assemble, asmXorw_eq, if_neg h]

/-! ### Wider accumulators (40_generator.md R57) -/

theorem and_mask32_toNat (x : BitVec 64) : (x &&& 0xFFFFFFFF#64).toNat = x.toNat % 2 ^ 32 :=
  Nat.and_two_pow_sub_one_eq_mod x.toNat 32

/-- Settles O22: a mask of 32 ones is a reduction modulo 2^32, which may come after the multiply or after the add. -/
theorem widerAccumulatorsAgree : Obligations.WiderAccumulatorsAgree := by
  intro s a
  have ha : a.toNat = 1664525 * s.toNat := by
    rw [BitVec.toNat_mul, BitVec.toNat_setWidth]
    bv_omega
  have hs := lcg_toNat s
  refine ⟨?_, ?_, ?_⟩
  · rw [← BitVec.toNat_inj, BitVec.toNat_setWidth, BitVec.toNat_add, and_mask32_toNat]
    bv_omega
  · rw [← BitVec.toNat_inj, and_mask32_toNat, BitVec.toNat_add, BitVec.toNat_setWidth_of_le (by decide)]
    bv_omega
  · rw [← BitVec.toNat_inj, and_mask32_toNat, BitVec.toNat_add, and_mask32_toNat,
      BitVec.toNat_setWidth_of_le (by decide)]
    bv_omega

end Sys2Proof.Machine

namespace Sys2Proof.Machine

/-! ### What writes `SEEDED` (10_state.md R18) -/

/-- An update whose function keeps some reading of a port keeps it everywhere. -/
theorem State.updInst_keeps {α : Type*} {s : State} {p q : Nat} {f : CoreInst → CoreInst} {c c' : CoreInst}
    (g : CoreInst → α) (hf : ∀ c, g (f c) = g c) (hc : s.insts[p]? = some c)
    (hc' : (s.updInst q f).insts[p]? = some c') : g c' = g c := by
  by_cases hpq : p = q
  · subst hpq
    rw [State.updInst_same, hc] at hc'
    cases hc'
    exact hf c
  · rw [State.updInst_other s f hpq, hc] at hc'
    cases hc'
    rfl

theorem step_seeded_iff {s t : State} {p : Nat} {c c' : CoreInst} (h : step s = .next t)
    (hc : s.insts[p]? = some c) (hc' : t.insts[p]? = some c') :
    c'.seeded = true ↔
      c.seeded = true ∨ (s.nextPort = some p ∧ ∃ imm, c.cmds.head? = some (encode (.seed 0 imm))) := by
  rcases step_cases s with ⟨hnone, hidle⟩ | ⟨q, d, w, hq, hd, hw, hserved⟩
  · obtain rfl : s.idle = t := Host.Outcome.next.inj (hidle.symm.trans h)
    rw [State.idle_insts, hc] at hc'
    cases hc'
    simp [hnone]
  · obtain rfl : s.served q w = t := Host.Outcome.next.inj (hserved.symm.trans h)
    by_cases hpq : p = q
    · subst hpq
      obtain rfl : d = c := Option.some.inj (hd.symm.trans hc)
      rw [State.served_same, hd] at hc'
      cases hc'
      rw [CoreInst.after_seeded_iff]
      simp only [decode_eq_seed_iff, hq, hw, Option.some_inj, true_and, eq_comm]
    · rw [State.served_other s w hpq, hc] at hc'
      cases hc'
      simp [hq, Ne.symm hpq]

/-- Over an event other than reset, `SEEDED` is set by a step that executes a legal `SEED` there, and is else kept. -/
theorem State.event_seeded_iff {s t : State} {e : Event} {os : List Observation} {p : Nat} {c c' : CoreInst}
    (he : s.event e = some (os, t)) (hreset : ∀ L, e ≠ .reset L) (hc : s.insts[p]? = some c)
    (hc' : t.insts[p]? = some c') :
    c'.seeded = true ↔ c.seeded = true ∨
      (e = .step ∧ s.nextPort = some p ∧ ∃ imm, c.cmds.head? = some (encode (.seed 0 imm))) := by
  cases e with
  | step =>
    obtain ⟨u, hu⟩ := step_total s
    simp only [State.event, hu] at he
    cases he
    simpa using step_seeded_iff hu hc hc'
  | present q w =>
    cases he
    simp [State.updInst_keeps (f := fun c => { c with cmds := c.cmds ++ [w] }) CoreInst.seeded (fun _ => rfl) hc hc']
  | take q =>
    cases he
    simp [State.updInst_keeps (f := fun c => { c with rsps := c.rsps.tail }) CoreInst.seeded (fun _ => rfl) hc hc']
  | serve q =>
    cases he
    obtain rfl : c = c' := Option.some.inj (hc.symm.trans hc')
    simp
  | reset L => exact absurd rfl (hreset L)

/-- Settles O44: an event other than reset is `State.event_seeded_iff`, and a reset leaves `SEEDED` 0. -/
theorem onlySeedAndResetWriteSeeded : Obligations.OnlySeedAndResetWriteSeeded := by
  intro s t e os p c c' he hc hc'
  by_cases hreset : ∃ L, e = .reset L
  · obtain ⟨L, rfl⟩ := hreset
    cases he
    rw [State.coreReset_getElem? L hc] at hc'
    cases hc'
    exact ⟨fun _ _ => ⟨L, rfl⟩, fun _ h => absurd h Bool.false_ne_true⟩
  · have hiff := State.event_seeded_iff he (not_exists.mp hreset) hc hc'
    exact ⟨fun h h' => absurd (hiff.mpr (.inl h)) (by simp [h']), fun h h' => (hiff.mp h').resolve_left (by simp [h])⟩

/-! ### One command is the transcribed step (60_exceptions.md R106) -/

/-- Settles O46, by `CoreInst.after_refStep`; a command leaves the command channel alone. -/
theorem commandIsTheReferenceStep : Obligations.CommandIsTheReferenceStep := by
  intro s c w hc
  obtain ⟨r, hrsps, href⟩ := c.after_refStep w
  obtain ⟨-, -, hcmds⟩ := CoreInst.after_responds (decode w) c
  refine ⟨_, _, r, href, ?_⟩
  rw [exec_of_lt _ (State.cur_lt hc), ← hrsps, ← hcmds]
  exact congrArg _ (State.updInst_congr hc rfl)

/-! ### Reset (70_reset_and_hazards.md R115) -/

theorem isDraw_of_wf {i : Instr} (hwf : i.wf = true) (hi : ∀ imm, i ≠ .seed 0 imm) : IsDraw i := by
  rintro rsv imm rfl
  obtain rfl : rsv = 0 := of_decide_eq_true hwf
  exact hi imm rfl

theorem State.mem_coreReset {s : State} {L : List Data} {c : CoreInst} (h : c ∈ (s.coreReset L).insts) :
    ∃ v, c = CoreInst.reset v := by
  obtain ⟨p, hp, rfl⟩ := List.mem_mapIdx.mp h
  exact ⟨_, rfl⟩

/-- Settles O52: every port is left as `CoreInst.reset` of the value its `S` is left at, and a legal draw is
`UNSEEDED`. -/
theorem resetClearsSeededAndEmptiesTheChannels : Obligations.ResetClearsSeededAndEmptiesTheChannels := by
  intro s L
  refine ⟨s.coreReset_length L, fun c hc => ?_, fun p hp v => ?_, fun p i hp hwf hi => ?_⟩
  · obtain ⟨v, rfl⟩ := State.mem_coreReset hc
    exact ⟨rfl, rfl, rfl⟩
  · refine ⟨List.replicate s.insts.length v, _, State.coreReset_getElem? _ (List.getElem?_eq_getElem hp), ?_⟩
    simp [CoreInst.reset, hp]
  · exact exec_unseeded (State.coreReset_getElem? L (List.getElem?_eq_getElem hp)) (isDraw_of_wf hwf hi)
      (rejection_eq_none_iff_wf.mpr hwf) rfl

/-! ### The step that serves a port (20_memory.md R27, R38, R39; log 5, log 10) -/

theorem State.updInst_eq_set {s : State} {p : Nat} {c : CoreInst} (hc : s.insts[p]? = some c)
    (f : CoreInst → CoreInst) : s.updInst p f = { s with insts := s.insts.set p (f c) } := by
  rw [State.updInst, List.modify_eq_set_getElem?, hc]
  rfl

/-- Settles O40: the fetch takes the word off the channel. -/
theorem stepExecutesTheOldestWord : Obligations.StepExecutesTheOldestWord := by
  intro s p c w ws hp hc hcmds
  rw [step_serve hp hc (by rw [hcmds]; rfl), State.fetchFrom, State.updInst_eq_set hc, hcmds]
  rfl

theorem State.nextPort_cons_iff {s : State} {p q : Nat} {ps : List Nat} (h : s.sched = p :: ps) :
    s.nextPort = some q ↔ q = p ∧ s.ready p = true := by
  rw [State.nextPort, h]
  by_cases hp : s.ready p = true <;> simp [hp, eq_comm]

theorem State.nextPort_nil_iff {s : State} {q : Nat} (h : s.sched = []) :
    s.nextPort = some q ↔ s.ready q = true ∧ ∀ p, p < q → s.ready p = false := by
  rw [State.nextPort, h]
  simp only [List.find?_range_eq_some, List.mem_range, Bool.not_eq_eq_eq_not, Bool.not_true]
  exact and_congr_right fun hq => and_iff_right (State.ready_lt hq)

/-- Settles O42, by `State.nextPort_cons_iff` and `State.nextPort_nil_iff`. -/
theorem serviceFollowsTheOrderGiven : Obligations.ServiceFollowsTheOrderGiven :=
  ⟨fun _ _ _ _ => State.nextPort_cons_iff, fun _ _ => State.nextPort_nil_iff, fun _ => step_idle⟩

/-- The port whose turn it is executes its oldest word, if it has room for the response. -/
theorem step_of_turn {s : State} {p : Nat} {ps : List Nat} {c : CoreInst} {w : Word40} (h : s.sched = p :: ps)
    (hc : s.insts[p]? = some c) (hw : c.cmds.head? = some w) (hroom : c.hasRoom s.rspDepth = true) :
    step s = exec (decode w) (s.fetchFrom p) := by
  have hready : s.ready p = true := State.ready_iff.mpr ⟨c, hc, by rintro hnil; simp [hnil] at hw, hroom⟩
  exact step_serve ((State.nextPort_cons_iff h).mpr ⟨rfl, hready⟩) hc hw

theorem CoreInst.hasRoom_of_empty {d : Option Nat} {c : CoreInst} (hd : d ≠ some 0) (hc : c.rsps = []) :
    c.hasRoom d = true := by
  cases d with
  | none => rfl
  | some n => simpa [CoreInst.hasRoom, hc, Nat.pos_iff_ne_zero] using hd

theorem CoreInst.hasRoom_withFetchWord {d : Option Nat} (hd : d ≠ some 0) (w : Word40) (c : CoreInst) :
    (c.withFetchWord d w).hasRoom d = true := by
  by_cases h : c.hasRoom d = true
  · rw [CoreInst.withFetchWord, if_pos h]
    exact h
  · exact CoreInst.hasRoom_of_empty hd (if_neg h)

/-- Settles O41: the placed word is the oldest at the port whose turn it is, which has room. -/
theorem placedWordIsExecutedNext : Obligations.PlacedWordIsExecutedNext := by
  intro s c nbits w ⟨_, hd⟩ hc
  have hc' : (s.withFetchWord nbits w).insts[s.cur]? = some (c.withFetchWord s.rspDepth (tableWord nbits w)) := by
    rw [State.withFetchWord, State.updInst_same, hc]
    rfl
  rw [step_of_turn rfl hc' rfl (CoreInst.hasRoom_withFetchWord hd _ c)]
  have hfetch : (s.withFetchWord nbits w).fetchFrom s.cur = (s.updInst s.cur (CoreInst.withFetchWord s.rspDepth
      (tableWord nbits w))).updInst s.cur fun c => { c with cmds := c.cmds.tail } := rfl
  rw [hfetch, State.updInst_updInst]
  rfl

/-- Settles O56: a full port is not served, and a step changes no port but the one it serves. -/
theorem fullResponseChannelStallsItsOwnInstanceOnly : Obligations.FullResponseChannelStallsItsOwnInstanceOnly := by
  refine ⟨fun s t p d c hd hc hfull h => ?_, fun s q c w hc hw hroom => step_of_turn rfl hc hw hroom⟩
  rcases step_cases s with ⟨-, hidle⟩ | ⟨q, c', w, hq, -, -, hserved⟩
  · obtain rfl : s.idle = t := Host.Outcome.next.inj (hidle.symm.trans h)
    exact hc
  · obtain rfl : s.served q w = t := Host.Outcome.next.inj (hserved.symm.trans h)
    have hpq : p ≠ q := by
      rintro rfl
      obtain ⟨e, he, -, hroom⟩ := State.ready_iff.mp (State.nextPort_ready hq)
      obtain rfl : c = e := Option.some.inj (hc.symm.trans he)
      rw [hd] at hroom
      exact absurd (of_decide_eq_true hroom) (Nat.not_lt.mpr hfull)
    rw [State.served_other s w hpq, hc]

end Sys2Proof.Machine

namespace Sys2Proof.Machine

/-! ### The bits of `S` that nothing reads (10_state.md R16, R25; 40_generator.md R63)

What a port shows from here on is a function of `CoreInst.visible`: the channels, `SEEDED`, and the low byte of `S` once
seeded. Each event keeps "the same visible State" and shows the same responses in both. -/

@[simp] theorem State.visible_length (s : State) : s.visible.insts.length = s.insts.length := List.length_map _
@[simp] theorem State.visible_getElem? (s : State) (p : Nat) :
    s.visible.insts[p]? = s.insts[p]?.map CoreInst.visible := List.getElem?_map

theorem zext32_injective : Function.Injective zext32 := by
  intro b c h
  simpa [zext32] using congrArg (BitVec.setWidth 8) h

theorem CoreInst.visible_eq_iff {c d : CoreInst} : c.visible = d.visible ↔
    c.seeded = d.seeded ∧ c.cmds = d.cmds ∧ c.rsps = d.rsps ∧ (c.seeded = true → lowByte c.S = lowByte d.S) := by
  obtain ⟨S, seeded, cmds, rsps⟩ := c
  obtain ⟨T, seeded', cmds', rsps'⟩ := d
  simp only [CoreInst.visible, CoreInst.mk.injEq]
  constructor
  · rintro ⟨hS, rfl, rfl, rfl⟩
    refine ⟨rfl, rfl, rfl, fun hs => ?_⟩
    rw [if_pos hs, if_pos hs] at hS
    exact zext32_injective hS
  · rintro ⟨rfl, rfl, rfl, hS⟩
    refine ⟨?_, rfl, rfl, rfl⟩
    split
    next hs => rw [hS hs]
    next => rfl

/-- The low byte goes its own way through the updates. -/
theorem lowByte_lcg_iterate (n : Nat) (S : Data) : lowByte (lcg^[n] S) = nextByte^[n] (lowByte S) :=
  (show Function.Semiconj lowByte lcg nextByte from lowByte_lcg).iterate_right n S

/-- The bytes drawn depend on the low byte of `S` only. -/
theorem keyBytes_congr {S T : Data} (h : lowByte S = lowByte T) (n : Nat) : keyBytes S n = keyBytes T n :=
  List.map_congr_left fun j _ => by rw [lowByte_lcg_iterate, lowByte_lcg_iterate, h]

theorem CoreInst.visible_takeFault {c d : CoreInst} (h : c.visible = d.visible) (f : FaultCode) :
    (c.takeFault f).visible = (d.takeFault f).visible := by
  rw [CoreInst.visible_eq_iff] at h ⊢
  obtain ⟨hseeded, hcmds, hrsps, hS⟩ := h
  exact ⟨hseeded, hcmds, congrArg (· ++ _) hrsps, hS⟩

/-- Draws at two ports that look the same draw the same bytes. -/
theorem CoreInst.visible_drawn {c d : CoreInst} (h : c.visible = d.visible) (hs : c.seeded = true) (len : Nibble)
    (ds : List Byte) : (c.drawn len ds).visible = (d.drawn len ds).visible := by
  rw [CoreInst.visible_eq_iff] at h ⊢
  obtain ⟨hseeded, hcmds, hrsps, hS⟩ := h
  refine ⟨hseeded, hcmds, ?_, fun _ => ?_⟩
  · rw [CoreInst.drawn, CoreInst.drawn, CoreInst.respond_rsps, CoreInst.respond_rsps, keyBytes_congr (hS hs), hrsps]
  · rw [CoreInst.drawn_S, CoreInst.drawn_S, lowByte_lcg_iterate, lowByte_lcg_iterate, hS hs]

/-- A command at two ports that look the same answers the same and leaves them looking the same. -/
theorem CoreInst.visible_after {c d : CoreInst} (h : c.visible = d.visible) (i : Instr) :
    (c.after i).visible = (d.after i).visible := by
  have hseeded : c.seeded = d.seeded := (CoreInst.visible_eq_iff.mp h).1
  rcases CoreInst.after_cases i c with ⟨f, hr, ha⟩ | ⟨hr, hi, hs, ha⟩ | ⟨imm, rfl, -⟩ | ⟨-, -, hr, hi, hs, -⟩
  · rw [ha, CoreInst.after_rejected hr]
    exact CoreInst.visible_takeFault h f
  · rw [ha, CoreInst.after_unseeded hi hr (hseeded ▸ hs)]
    exact CoreInst.visible_takeFault h .unseeded
  · obtain ⟨-, hcmds, hrsps, -⟩ := CoreInst.visible_eq_iff.mp h
    rw [CoreInst.after_seed, CoreInst.after_seed, hcmds, hrsps]
  · obtain ⟨len, ds, -, -, -, ha⟩ := CoreInst.drawn_of_legal hi hr
    rw [ha, ha, ← hseeded, drawFault, hr, hs]
    exact CoreInst.visible_drawn h hs len ds

/-! ### The same for the whole core -/

/-- Two cores look the same if they do port by port, and agree in the model's own fields. -/
theorem State.visible_eq_iff {s t : State} : s.visible = t.visible ↔
    (∀ p : Nat, s.insts[p]?.map CoreInst.visible = t.insts[p]?.map CoreInst.visible) ∧
      s.cur = t.cur ∧ s.sched = t.sched ∧ s.rspDepth = t.rspDepth := by
  obtain ⟨insts, cur, sched, depth⟩ := s
  obtain ⟨insts', cur', sched', depth'⟩ := t
  simp only [State.visible, State.mk.injEq, List.ext_getElem?_iff, List.getElem?_map]

theorem CoreInst.visible_map {o o' : Option CoreInst} {f g : CoreInst → CoreInst}
    (h : o.map CoreInst.visible = o'.map CoreInst.visible)
    (hfg : ∀ c d : CoreInst, c.visible = d.visible → (f c).visible = (g d).visible) :
    (o.map f).map CoreInst.visible = (o'.map g).map CoreInst.visible := by
  cases o with
  | none =>
    cases o' with
    | none => rfl
    | some d => cases h
  | some c =>
    cases o' with
    | none => cases h
    | some d => exact congrArg some (hfg c d (Option.some.inj h))

/-- One update of two cores that look the same, by a function that keeps looking the same. -/
theorem State.visible_updInst {s t : State} {f : CoreInst → CoreInst} (h : s.visible = t.visible) (p : Nat)
    (hf : ∀ c d : CoreInst, c.visible = d.visible → (f c).visible = (f d).visible) :
    (s.updInst p f).visible = (t.updInst p f).visible := by
  rw [State.visible_eq_iff] at h ⊢
  obtain ⟨hinsts, hfields⟩ := h
  refine ⟨fun q => ?_, hfields⟩
  by_cases hqp : q = p
  · subst hqp
    rw [State.updInst_same, State.updInst_same]
    exact CoreInst.visible_map (hinsts q) hf
  · rw [State.updInst_other s f hqp, State.updInst_other t f hqp, hinsts q]

theorem State.ready_visible (s : State) : s.visible.ready = s.ready := by
  funext p
  rw [State.ready, State.ready, State.visible_getElem?]
  cases s.insts[p]? <;> rfl

theorem State.nextPort_visible (s : State) : s.visible.nextPort = s.nextPort := by
  rw [State.nextPort, State.nextPort, State.ready_visible, State.visible_length]
  rfl

/-- Of two cores that look the same, both step, and look the same after it. -/
theorem State.visible_step {s t : State} (h : s.visible = t.visible) :
    ∃ s' t', step s = .next s' ∧ step t = .next t' ∧ s'.visible = t'.visible := by
  have hport : s.nextPort = t.nextPort := by rw [← State.nextPort_visible, h, State.nextPort_visible]
  obtain ⟨hinsts, hcur, hsched, hdepth⟩ := State.visible_eq_iff.mp h
  rcases step_cases s with ⟨hp, hs⟩ | ⟨p, c, w, hp, hc, hw, hs⟩
  · exact ⟨_, _, hs, step_idle (hport ▸ hp), State.visible_eq_iff.mpr ⟨hinsts, hcur, congrArg List.tail hsched, hdepth⟩⟩
  · rcases step_cases t with ⟨hq, -⟩ | ⟨q, d, v, hq, hd, hv, ht⟩
    · cases hp.symm.trans (hport.trans hq)
    · obtain rfl : p = q := Option.some.inj (hp.symm.trans (hport.trans hq))
      have hcd : c.visible = d.visible := by simpa [hc, hd] using hinsts p
      obtain ⟨-, hcmds, -⟩ := CoreInst.visible_eq_iff.mp hcd
      obtain rfl : w = v := Option.some.inj (hw.symm.trans (hcmds ▸ hv))
      refine ⟨_, _, hs, ht, State.visible_eq_iff.mpr ⟨?_, rfl, congrArg List.tail hsched, hdepth⟩⟩
      refine (State.visible_eq_iff.mp (State.visible_updInst h p fun c d hcd => CoreInst.visible_after ?_ (decode w))).1
      rw [CoreInst.visible_eq_iff] at hcd ⊢
      obtain ⟨hseeded, hcmds, hrsps, hS⟩ := hcd
      exact ⟨hseeded, congrArg List.tail hcmds, hrsps, hS⟩

theorem State.visible_present {s t : State} (h : s.visible = t.visible) (p : Nat) (w : Word40) :
    (s.present p w).visible = (t.present p w).visible := by
  refine State.visible_updInst h p fun c d hcd => ?_
  rw [CoreInst.visible_eq_iff] at hcd ⊢
  obtain ⟨hseeded, hcmds, hrsps, hS⟩ := hcd
  exact ⟨hseeded, congrArg (· ++ [w]) hcmds, hrsps, hS⟩

theorem State.visible_take {s t : State} (h : s.visible = t.visible) (p : Nat) :
    (s.take p).1 = (t.take p).1 ∧ (s.take p).2.visible = (t.take p).2.visible := by
  constructor
  · have hp := (State.visible_eq_iff.mp h).1 p
    have hhead (o : Option CoreInst) : o.bind (·.rsps.head?) = (o.map CoreInst.visible).bind (·.rsps.head?) := by
      cases o <;> rfl
    rw [State.take, State.take, hhead, hp, ← hhead]
  · refine State.visible_updInst h p fun c d hcd => ?_
    rw [CoreInst.visible_eq_iff] at hcd ⊢
    obtain ⟨hseeded, hcmds, hrsps, hS⟩ := hcd
    exact ⟨hseeded, hcmds, congrArg List.tail hrsps, hS⟩

/-- What `S` is left at by a reset does not show. -/
theorem State.visible_coreReset {s t : State} (h : s.visible = t.visible) (L L' : List Data) :
    (s.coreReset L).visible = (t.coreReset L').visible := by
  obtain ⟨hinsts, -, -, hdepth⟩ := State.visible_eq_iff.mp h
  refine State.visible_eq_iff.mpr ⟨fun p => ?_, rfl, rfl, hdepth⟩
  rw [State.coreReset, State.coreReset, List.getElem?_mapIdx, List.getElem?_mapIdx]
  exact CoreInst.visible_map (hinsts p) fun _ _ _ => rfl

/-- In any event two cores that look the same show the same responses, and look the same after it. -/
theorem State.visible_event {s t : State} (h : s.visible = t.visible) (e : Event) :
    ∃ os s' t', s.event e = some (os, s') ∧ t.event e = some (os, t') ∧ s'.visible = t'.visible := by
  cases e with
  | step =>
    obtain ⟨s', t', hs, ht, h'⟩ := State.visible_step h
    exact ⟨[], s', t', by simp only [State.event, hs], by simp only [State.event, ht], h'⟩
  | present p w => exact ⟨[], _, _, rfl, rfl, State.visible_present h p w⟩
  | take p =>
    obtain ⟨hr, h'⟩ := State.visible_take h p
    exact ⟨_, _, _, rfl, by rw [State.event, hr], h'⟩
  | serve p =>
    obtain ⟨hinsts, hcur, hsched, hdepth⟩ := State.visible_eq_iff.mp h
    exact ⟨[], _, _, rfl, rfl, State.visible_eq_iff.mpr ⟨hinsts, hcur, congrArg (· ++ [p]) hsched, hdepth⟩⟩
  | reset L => exact ⟨[], _, _, rfl, rfl, State.visible_coreReset h L L⟩

theorem State.runEvents_cons_fst {s s' : State} {e : Event} {os : List Observation} (he : s.event e = some (os, s'))
    (es : List Event) :
    (s.runEvents (e :: es)).map Prod.fst = ((s'.runEvents es).map Prod.fst).map (os ++ ·) := by
  rw [State.runEvents, he, Option.map_map, Option.map_map]
  rfl

/-- Settles O51, by induction on the events, each by `State.visible_event`. -/
theorem highBitsOfSAreUnobservable : Obligations.HighBitsOfSAreUnobservable := by
  intro es
  induction es with
  | nil => exact fun s s' _ => rfl
  | cons e es ih =>
    intro s t h
    obtain ⟨os, s', t', hs, ht, h'⟩ := State.visible_event h e
    rw [State.runEvents_cons_fst hs, State.runEvents_cons_fst ht, ih s' t' h']

/-- Settles O50: the two cores right after the reset look the same. -/
theorem stateLeftByResetIsUnobservable : Obligations.StateLeftByResetIsUnobservable := by
  refine fun s L L' => ⟨fun c hc => ?_, fun es => ?_⟩
  · obtain ⟨v, rfl⟩ := State.mem_coreReset hc
    rfl
  · exact highBitsOfSAreUnobservable es _ _ (State.visible_coreReset rfl L L')

end Sys2Proof.Machine

namespace Sys2Proof.Machine

/-! ### Every waiting command is executed (70_reset_and_hazards.md R124; log 3, log 5) -/

/-- The number of commands that wait in the core. -/
def State.waiting (s : State) : Nat := (s.insts.map fun c => c.cmds.length).sum

theorem sum_map_modify {α : Type*} (g : α → Nat) (f : α → α) {l : List α} {p : Nat} {a : α} (h : l[p]? = some a) :
    ((l.modify p f).map g).sum + g a = (l.map g).sum + g (f a) := by
  induction l generalizing p with
  | nil => cases h
  | cons b l ih =>
    cases p with
    | zero =>
      cases h
      rw [List.modify_zero_cons, List.map_cons, List.map_cons, List.sum_cons, List.sum_cons]
      omega
    | succ p =>
      have ih := ih (p := p) h
      simp only [List.modify_succ_cons, List.map_cons, List.sum_cons]
      omega

/-- A served word is one that waits no more. -/
theorem State.served_waiting {s : State} {p : Nat} {c : CoreInst} {w : Word40} (hc : s.insts[p]? = some c)
    (hw : c.cmds.head? = some w) : (s.served p w).waiting + 1 = s.waiting := by
  have hsum : (s.served p w).waiting + c.cmds.length =
      s.waiting + (CoreInst.after (decode w) { c with cmds := c.cmds.tail }).cmds.length := sum_map_modify _ _ hc
  have hafter : (CoreInst.after (decode w) { c with cmds := c.cmds.tail }).cmds = c.cmds.tail := by
    obtain ⟨r, -, hcmds⟩ := CoreInst.after_responds (decode w) { c with cmds := c.cmds.tail }
    exact hcmds
  have hlen : c.cmds.length = c.cmds.tail.length + 1 := congrArg List.length (List.cons_head?_tail hw).symm
  rw [hafter] at hsum
  omega

theorem State.waiting_eq_zero_iff {s : State} : s.waiting = 0 ↔ ∀ c ∈ s.insts, c.cmds = [] := by
  simp [State.waiting, List.sum_eq_zero_iff]

/-- With room for every response and no order of service given, a command is served as long as one waits. -/
theorem State.waiting_eq_zero_of_nextPort {s : State} (hd : s.rspDepth = none) (hs : s.sched = [])
    (h : s.nextPort = none) : s.waiting = 0 := by
  rw [State.nextPort, hs] at h
  refine State.waiting_eq_zero_iff.mpr fun c hc => by_contra fun hne => ?_
  obtain ⟨p, hp⟩ := List.mem_iff_getElem?.mp hc
  have hready : s.ready p = true := State.ready_iff.mpr ⟨c, hp, hne, by rw [hd]; rfl⟩
  exact List.find?_eq_none.mp h p (List.mem_range.mpr (State.ready_lt hready)) hready

theorem run_succ {s t : State} (n : Nat) (h : step s = .next t) :
    Host.Core.run core (n + 1) s = Host.Core.run core n t := by
  have h' : core.step s = .next t := h
  simp only [Host.Core.run, h']

/-- As many steps as there are waiting commands execute them all, each port's in order. -/
theorem State.run_waiting (n : Nat) {s : State} (hd : s.rspDepth = none) (hs : s.sched = []) (hn : s.waiting = n) :
    ∃ t, Host.Core.run core n s = .next t ∧ (∀ c ∈ t.insts, c.cmds = []) ∧
      ∀ (p : Nat) (c : CoreInst), s.insts[p]? = some c → ∃ c', t.insts[p]? = some c' ∧ c.Progress [] [] c' := by
  induction n generalizing s with
  | zero => exact ⟨s, rfl, State.waiting_eq_zero_iff.mp hn, fun p c hc => ⟨c, hc, .refl c⟩⟩
  | succ n ih =>
    rcases step_cases s with ⟨hnone, -⟩ | ⟨p, c, w, -, hc, hw, hserved⟩
    · have hzero := State.waiting_eq_zero_of_nextPort hd hs hnone
      omega
    · have hwaiting := State.served_waiting hc hw
      obtain ⟨t, hrun, hempty, hprogress⟩ := ih (s := s.served p w) hd (congrArg List.tail hs) (by omega)
      refine ⟨t, (run_succ n hserved).trans hrun, hempty, fun q d hq => ?_⟩
      obtain ⟨d₁, hd₁, h₁⟩ := step_progress hserved hq
      obtain ⟨d₂, hd₂, h₂⟩ := hprogress q d₁ hd₁
      exact ⟨d₂, hd₂, h₁.trans h₂⟩

theorem CoreInst.executes_rsps_length (c : CoreInst) (ws : List Word40) :
    (c.executes ws).rsps.length = c.rsps.length + ws.length := by
  induction ws generalizing c with
  | nil => rfl
  | cons w ws ih =>
    obtain ⟨r, hr, -⟩ := CoreInst.after_responds (decode w) c
    rw [CoreInst.executes_cons, ih, hr, List.length_append, List.length_singleton, List.length_cons]
    omega

/-- Settles O57: the steps execute at each port the words that waited there, and each word adds one response. -/
theorem waitingCommandsAreAllExecuted : Obligations.WaitingCommandsAreAllExecuted := by
  intro s _ hd hs
  obtain ⟨t, hrun, hempty, hprogress⟩ := State.run_waiting _ hd hs rfl
  refine ⟨t, hrun, hempty, fun p c c' hc hc' => ?_⟩
  obtain ⟨d, hd, h⟩ := hprogress p c hc
  obtain rfl : d = c' := Option.some.inj (hd.symm.trans hc')
  have hexec := h.eq_of_drained (hempty d (List.mem_of_getElem? hd))
  have hlen := congrArg (fun c : CoreInst => c.rsps.length) hexec
  simpa [CoreInst.executes_rsps_length] using hlen

end Sys2Proof.Machine
